-- ==== Sys2Proof/Word.lean ====
section
/-!
DEFINITION. The plain value types of the block and the command as the ports carry it.
Every value of this hardware is an unsigned bit vector or a natural number (00_scope.md R7, 43_common_laws.md R100).
-/

namespace Sys2Proof

/-- One bit: `RES`, `ACC`, `RVALID`, a per-chunk bit, the carry `CY`. -/
abbrev Bit := BitVec 1

/-- A byte: a `CMP8` comparand, one byte of memory (00_scope.md R5 `BYTE_W`). -/
abbrev Byte := BitVec 8

/-- A 64-bit word: a `CMP64` comparand, an operand port, a word read (00_scope.md R5 `WORD_W`, R6 `OPND_W`). -/
abbrev Word := BitVec 64

/-- One command, the 4-tuple of 30_encoding.md R53, its four fields sampled together (R52).
`len` travels on a port of `LEN_W` bits; it is held in 64 bits, the bits above `LEN_W` being no bits of the port (log 2, 20). -/
structure Command where
  op  : BitVec 2
  opa : Word
  opb : Word
  len : Word
  deriving DecidableEq, Repr

end Sys2Proof
end

