-- ==== Sys2Proof/Config.lean ====
section
/-!
DEFINITION. What an implementation fixes (the two open widths) and the free values.
-/

namespace Sys2Proof

/-- The two parameters the spec leaves OPEN (00_scope.md R6, 92_eei_decisions.md D6, 93_implementation_defined.md U9).
A state carries them as plain data and no step writes them (log 1). -/
structure Params where
  /-- `ADDR_W`, the width of a memory address. -/
  addrW : Nat
  /-- `LEN_W`, the width of the `len` port and of `LEN` and `K`. -/
  lenW  : Nat
  deriving DecidableEq, Repr

/-- The defaults of 00_scope.md R6. -/
def Params.standard : Params := { addrW := 64, lenW := 64 }

/-- `1 ≤ ADDR_W ≤ 64` and `1 ≤ LEN_W ≤ 64` (00_scope.md R6). -/
abbrev Params.Legal (p : Params) : Prop :=
  (1 ≤ p.addrW ∧ p.addrW ≤ 64) ∧ (1 ≤ p.lenW ∧ p.lenW ≤ 64)

/-- Free values, one for each number: what a hidden register holds after a `Reset` step is "an arbitrary value"
(93_implementation_defined.md U6). It has no body, so nothing can be proved of a value of it (log 4). -/
opaque Config.freeWord : Nat → Word

end Sys2Proof
end

