-- ==== Sys2Proof/Syntax.lean ====
section
/-!
DEFINITION. The instructions: one constructor for each row of spec/opcode_table.json.
-/

namespace Sys2Proof

/-- The four rows of the table (30_encoding.md R53). Each constructor keeps the whole of the three operand ports, because
the `Issue` event records "the fields as issued", ignored bits included (95_test_vectors.md section 2, 00_scope.md R12);
Machine/Operands.lean takes the bits that matter (R54 to R56). -/
inductive Instr where
  /-- `CMP8`, `op = 0` (40_scalar_compare8.md R68). -/
  | cmp8 (opa opb len : Word)
  /-- `CMP64`, `op = 1` (41_scalar_compare64.md R76). -/
  | cmp64 (opa opb len : Word)
  /-- `CMPBUF`, `op = 2` (42_buffer_compare.md R83). -/
  | cmpbuf (opa opb len : Word)
  /-- The reserved code `op = 3`, which has no operation (30_encoding.md R57). -/
  | reserved (opa opb len : Word)
  deriving DecidableEq, Repr

end Sys2Proof
end

