-- ==== Sys2Proof/Machine/State.lean ====
section
/-!
DEFINITION. The state of the transition system of 00_scope.md R12: the eight registers of 10_state.md R15, the event
history, the two open widths, the memory the block reads and what the host does next. Plain data throughout.
-/

namespace Sys2Proof.Machine

/-- `PHASE` (10_state.md R16). -/
inductive Phase where
  /-- 0: no command is in progress. -/
  | idle
  /-- 1: a `CMPBUF` command is in progress. -/
  | run
  deriving DecidableEq, Repr

/-- The two sizes of a read (20_memory.md R33): `one` byte, or the `eight` bytes of a word. -/
inductive ReadSize where
  | one
  | eight
  deriving DecidableEq, Repr

/-- Which of the two buffers a read belongs to. -/
inductive Buffer where
  | a
  | b
  deriving DecidableEq, Repr

/-- The events of 00_scope.md R12. -/
inductive Event where
  /-- `Issue(op, opa, opb, len)`: the fields as issued. -/
  | issue (op : BitVec 2) (opa opb len : Word)
  /-- `Read(addr, n, value)`: `value` in 64 bits, a byte zero-extended (30_encoding.md R51, log 22). -/
  | read (addr : Nat) (size : ReadSize) (value : Word)
  /-- `Complete(res)`. -/
  | complete (res : Bit)
  /-- `Reset`. -/
  | reset
  deriving DecidableEq, Repr

/-- What the host does, one entry at a time (30_encoding.md R52, 60_exceptions.md R133; log 6). -/
inductive HostInput where
  /-- Asserts `rst` (70_reset_and_hazards.md R136). -/
  | reset
  /-- Presents a command; it is handed over when `busy = 0` and waits until then (70_reset_and_hazards.md R143). -/
  | present (c : Command)
  /-- Drives nothing while the block takes one step of its own, if one is enabled. -/
  | pass
  /-- The owner of the memory puts a byte at an address, which makes it readable (20_memory.md R36, R41). -/
  | store (addr : Nat) (v : Byte)
  /-- The owner makes an address unreadable: frees or unmaps it (70_reset_and_hazards.md R145). -/
  | release (addr : Nat)
  deriving DecidableEq, Repr

/-- Memory: the readable bytes, in order of address, no address twice. An address that is not listed is not readable
(20_memory.md R36; log 5). -/
abbrev Memory := List Host.Cell

/-- A fault of the model (60_exceptions.md R118, R121): the source calls the situation undefined, so the model stops. -/
inductive Fault where
  /-- `UnreadableMemory(addr, n)`, with the buffer and `K` recorded (60_exceptions.md R119), and the history up to the fault,
  which holds the reads performed before it. Raised by a `Chunk` step of `CMPBUF` whose read touches a byte that is not
  readable or lies past the top of the address space. SAFE: the document gives no behaviour, so nothing is claimed (log 9). -/
  | unreadableMemory (addr n : Nat) (buffer : Buffer) (k : Nat) (history : List Event)
  deriving DecidableEq, Repr

/-- A refusal of the model (60_exceptions.md R118, R121): the model gives the command no meaning. -/
inductive Refusal where
  /-- `ReservedOp`, the four fields recorded (60_exceptions.md R120). Raised by a command transfer with `op = 3`. SAFE: the
  hardware does nothing and goes on, the model claims nothing of the rest of the run (log 10). -/
  | reservedOp (op : BitVec 2) (opa opb len : Word)
  /-- An instruction without a meaning yet; no arm answers it. SAFE. -/
  | notModelled (mnemonic : String)
  deriving DecidableEq, Repr

/-- The state. A register of `ADDR_W` or `LEN_W` bits is held in 64 bits whose bits above that width are 0 (log 2). -/
structure State where
  /-- `ADDR_W` and `LEN_W` (00_scope.md R6; log 1). -/
  params  : Params
  /-- `PHASE` (10_state.md R16). -/
  phase   : Phase
  /-- `BASEA` (10_state.md R17). -/
  baseA   : Word
  /-- `BASEB` (10_state.md R17). -/
  baseB   : Word
  /-- `LEN` (10_state.md R18). -/
  len     : Word
  /-- `K` (10_state.md R19). -/
  k       : Word
  /-- `ACC` (10_state.md R20). -/
  acc     : Bit
  /-- `RES` (10_state.md R21). -/
  res     : Bit
  /-- `RVALID` (10_state.md R22). -/
  rvalid  : Bit
  /-- The memory contents and the readable set (20_memory.md R33, R36). -/
  mem     : Memory
  /-- The event history, in the order performed (00_scope.md R12). -/
  history : List Event
  /-- What the host does from here on (log 6). -/
  host    : List HostInput
  /-- The model's own: how many free values have been drawn (log 4). -/
  draws   : Nat
  deriving DecidableEq, Repr

/-- The machine right after reset (10_state.md R29, 95_test_vectors.md section 5). `PHASE`, `RVALID` and `RES` are the
spec's; the five hidden registers are unspecified there and 0 here (DESIGN CHOICE, log 3); the widths are the defaults
of 00_scope.md R6; no byte of memory is readable (log 5); the host does nothing (log 6). -/
def State.reset : State where
  params  := Params.standard
  phase   := .idle
  baseA   := 0
  baseB   := 0
  len     := 0
  k       := 0
  acc     := 0
  res     := 0
  rvalid  := 0
  mem     := []
  history := [.reset]
  host    := []
  draws   := 0

end Sys2Proof.Machine
end

