-- ==== Sys2Proof/Machine/Ops.lean ====
section
/-!
DEFINITION. The named operations over the registers, the memory, the partition of a buffer, the history and the ports.
There is no operation that takes an exception: "The block raises no synchronous exception" (60_exceptions.md R116) and
"There is no trap" (R125). What stands in its place is the model's fault, `State.unreadable`, said once.
-/

namespace Sys2Proof.Machine

/-! ## Widths -/

/-- The low `w` bits of a value, zero-extended back into 64: what a register or port of `w` bits holds of it (`v[w-1:0]`,
00_scope.md R7, R8). -/
def lowBits (w : Nat) (v : Word) : Word := (v.setWidth w).setWidth 64

/-- The number of byte addresses, `2^ADDR_W` (20_memory.md R31). -/
def Params.addrSpace (p : Params) : Nat := 2 ^ p.addrW

/-- A command as the ports carry it: the `len` port has `LEN_W` bits and no more (30_encoding.md R51; log 20). -/
def Command.onPorts (p : Params) (c : Command) : Command := { c with len := lowBits p.lenW c.len }

/-! ## Memory -/

/-- How many bytes a read of this size takes (20_memory.md R33). -/
def ReadSize.bytes : ReadSize → Nat
  | .one   => 1
  | .eight => 8

/-- The byte at an address; none where it is not readable (20_memory.md R36). -/
def Memory.read : Memory → Nat → Option Byte
  | [], _          => none
  | (a, v) :: m, x => if a = x then some v else Memory.read m x

/-- The memory with the byte at `x` set to `v`; the order of addresses is kept. -/
def Memory.write : Memory → Nat → Byte → Memory
  | [], x, v          => [(x, v)]
  | (a, w) :: m, x, v =>
    if x < a then (x, v) :: (a, w) :: m
    else if x = a then (x, v) :: m
    else (a, w) :: Memory.write m x v

/-- A write into an address space of `space` bytes: an address at or above `space` does not exist and holds no byte (log 19). -/
def Memory.writeWithin (m : Memory) (space x : Nat) (v : Byte) : Memory := if x < space then m.write x v else m

/-- The memory with the byte at `x` no longer readable. -/
def Memory.erase (m : Memory) (x : Nat) : Memory := m.filter fun c => c.1 != x

/-- The canonical form: addresses strictly rising, so none stands twice. -/
abbrev Memory.wf (m : Memory) : Prop := m.Pairwise fun x y => x.1 < y.1

/-- The `n` bytes from `addr` on as one value, `n ≤ 8`, the byte at the lowest address in bits 7:0 (20_memory.md R34); none
where one of them is not readable. -/
def Memory.readLE (m : Memory) : (n addr : Nat) → Option Word
  | 0, _        => some 0
  | n + 1, addr =>
    match Memory.read m addr, Memory.readLE m n (addr + 1) with
    | some lo, some hi => some (hi <<< 8 ||| lo.setWidth 64)
    | _, _             => none

/-- `MemRead(addr, n)` (20_memory.md R33), its value held in 64 bits, a byte zero-extended (the port's bits 63:8 are "unused
for a 1-byte read", 30_encoding.md R51; log 22): no value where a byte is not readable or `addr + n > 2^ADDR_W`; addresses are natural numbers and
do not wrap (R37); no alignment is asked (R35). -/
def memRead (p : Params) (m : Memory) (addr : Nat) (size : ReadSize) : Option Word :=
  if addr + size.bytes ≤ Params.addrSpace p then m.readLE size.bytes addr else none

/-! ## The partition of a buffer (10_state.md R23, 42_buffer_compare.md R84) -/

/-- `NW`, the number of full-word chunks. -/
def numWords (len : Nat) : Nat := len / 8

/-- `REM`, the number of tail bytes. -/
def numTail (len : Nat) : Nat := len % 8

/-- `NCH`, the number of chunks in all. -/
def numChunks (len : Nat) : Nat := numWords len + numTail len

/-- `off(k)`, the byte offset of chunk `k`. -/
def chunkOffset (len k : Nat) : Nat :=
  if k < numWords len then 8 * k else 8 * numWords len + (k - numWords len)

/-- `size(k)`, the bytes chunk `k` reads from each buffer. -/
def chunkSize (len k : Nat) : ReadSize := if k < numWords len then .eight else .one

/-! ## The history -/

/-- `emit` (00_scope.md R9, R12): events are appended in the order performed. -/
def State.emit (s : State) (es : List Event) : State := { s with history := s.history ++ es }

/-! ## Register writes, one operation for each group the spec writes in one step -/

/-- A result is published: `RES <- r`, `RVALID <- 1`, `emit Complete(r)` (40_scalar_compare8.md R68, 41_scalar_compare64.md
R76, 42_buffer_compare.md R89). -/
def State.publish (s : State) (r : Bit) : State :=
  { s with res := r, rvalid := 1, history := s.history ++ [.complete r] }

/-- `PHASE <- IDLE` (42_buffer_compare.md R89). -/
def State.toIdle (s : State) : State := { s with phase := .idle }

/-- The register writes of the `Issue` step of `CMPBUF` (42_buffer_compare.md R83). -/
def State.startBuffer (s : State) (a b len : Word) : State :=
  { s with baseA := a, baseB := b, len := len, k := 0, acc := 1, res := 0, rvalid := 0, phase := .run }

/-- `ACC <- ACC AND r`, `K <- K + 1` (42_buffer_compare.md R85, R88): a bitwise AND, with no test of `ACC`. -/
def State.accumulate (s : State) (r : Bit) : State :=
  { s with acc := s.acc &&& r, k := lowBits s.params.lenW (s.k + 1) }

/-- The `Reset` step (70_reset_and_hazards.md R136, 10_state.md R29): `PHASE`, `RVALID` and `RES` are cleared; the five
hidden registers are unspecified and take free values, one bit or the width of the register from each (log 4). -/
def State.resetBlock (s : State) : State :=
  { s with
    phase   := .idle
    rvalid  := 0
    res     := 0
    baseA   := lowBits s.params.addrW (Config.freeWord s.draws)
    baseB   := lowBits s.params.addrW (Config.freeWord (s.draws + 1))
    len     := lowBits s.params.lenW (Config.freeWord (s.draws + 2))
    k       := lowBits s.params.lenW (Config.freeWord (s.draws + 3))
    acc     := (Config.freeWord (s.draws + 4)).setWidth 1
    draws   := s.draws + 5
    history := s.history ++ [.reset] }

/-- What is left of the host's list. -/
def State.withHost (s : State) (h : List HostInput) : State := { s with host := h }

/-- The caller's byte `v` at `addr`; an address that does not exist holds no byte (20_memory.md R31; log 19). -/
def State.callerStore (s : State) (addr : Nat) (v : Byte) : State :=
  { s with mem := s.mem.writeWithin (Params.addrSpace s.params) addr v }

/-- The caller's release of the byte at `addr` (70_reset_and_hazards.md R145). -/
def State.callerRelease (s : State) (addr : Nat) : State := { s with mem := s.mem.erase addr }

/-! ## The model's fault -/

/-- `fault UnreadableMemory(addr, n)` with what 60_exceptions.md R119 records of it. -/
def State.unreadable (s : State) (addr : Nat) (size : ReadSize) (buffer : Buffer) : Fault :=
  .unreadableMemory addr size.bytes buffer s.k.toNat s.history

/-! ## The output ports (30_encoding.md R51, 10_state.md R26) -/

/-- `busy = PHASE`. -/
def State.busyPort (s : State) : Bit :=
  match s.phase with
  | .idle => 0
  | .run  => 1

/-- `rvalid = RVALID`. -/
def State.rvalidPort (s : State) : Bit := s.rvalid

/-- `res = RES`. -/
def State.resPort (s : State) : Bit := s.res

/-- `(maddr, msize)` of an event: a read presents its address and `0` for 1 byte, `1` for 8. -/
def Event.readPort : Event → Option (Nat × Bit)
  | .read addr .one _   => some (addr, 0)
  | .read addr .eight _ => some (addr, 1)
  | .issue _ _ _ _      => none
  | .complete _         => none
  | .reset              => none

/-- The result in a host's `n`-bit container: zero-extended (30_encoding.md R60). -/
def State.resultWidened (s : State) (n : Nat) : BitVec n := s.res.setWidth n

end Sys2Proof.Machine
end

