-- ==== Sys2Proof/Machine/Flags.lean ====
section
/-!
DEFINITION. The one condition signal, the carry `CY` of the `+1` adder (10_state.md R24), and the two comparators that
capture it, `eq8` and `eq64` (00_scope.md R10), with their intermediates as functions (10_state.md R25: no storage).
-/

namespace Sys2Proof.Machine

/-- `add_N(a, b)`, the exact sum in `N + 1` bits (00_scope.md R8). -/
def addExact {n : Nat} (a b : BitVec n) : BitVec (n + 1) := a.setWidth (n + 1) + b.setWidth (n + 1)

/-- The carry out of bit `N - 1` of an exact sum: its bit `N` (00_scope.md R8). -/
def carryOut {n : Nat} (s : BitVec (n + 1)) : Bit := s.extractLsb' n 1

/-- `x = (b XOR 0xFF) XOR c` (40_scalar_compare8.md R68). -/
def cmpX8 (b c : Byte) : Byte := (b ^^^ 0xFF#8) ^^^ c

/-- `s = add_8(x, 0x01)`, 9 bits (40_scalar_compare8.md R68). -/
def cmpSum8 (b c : Byte) : BitVec 9 := addExact (cmpX8 b c) 0x01#8

/-- `eq8(b, c)`: the carry out of bit 7 (00_scope.md R10, 40_scalar_compare8.md R68). -/
def eq8 (b c : Byte) : Bit := carryOut (cmpSum8 b c)

/-- `x = (b XOR ALL_ONES_64) XOR c` (41_scalar_compare64.md R76). -/
def cmpX64 (b c : Word) : Word := (b ^^^ 0xFFFFFFFFFFFFFFFF#64) ^^^ c

/-- `s = add_64(x, 1)`, 65 bits (41_scalar_compare64.md R76). -/
def cmpSum64 (b c : Word) : BitVec 65 := addExact (cmpX64 b c) 1#64

/-- `eq64(b, c)`: the carry out of bit 63 (00_scope.md R10, 41_scalar_compare64.md R76). -/
def eq64 (b c : Word) : Bit := carryOut (cmpSum64 b c)

/-- The per-chunk bit `r` of the two values a chunk read: `eq64` of two words, `eq8` of two bytes
(42_buffer_compare.md R85 to R87). -/
def chunkBit : ReadSize → Word → Word → Bit
  | .eight, va, vb => eq64 va vb
  | .one, va, vb   => eq8 (va.setWidth 8) (vb.setWidth 8)

end Sys2Proof.Machine
end

