-- ==== Sys2Proof/Machine/Operands.lean ====
section
/-!
DEFINITION. Operand assembly (30_encoding.md R54 to R56): which bits of the operand ports an operation takes.
-/

namespace Sys2Proof.Machine

/-- A `CMP8` comparand, bits 7:0 of its port (30_encoding.md R54). -/
def byteOperand (port : Word) : Byte := port.setWidth 8

/-- A `CMP64` comparand, bits 63:0 of its port (30_encoding.md R55). -/
def wordOperand (port : Word) : Word := port

/-- A base address of `CMPBUF`, bits `ADDR_W-1:0` of its port (30_encoding.md R56). -/
def baseOperand (p : Params) (port : Word) : Word := lowBits p.addrW port

/-- The length of `CMPBUF`, `len[LEN_W-1:0]` (30_encoding.md R56). -/
def lengthOperand (p : Params) (port : Word) : Word := lowBits p.lenW port

end Sys2Proof.Machine
end

