-- ==== Sys2Proof/Machine/BufferCompare.lean ====
section
/-!
DEFINITION. The buffer family: `CMPBUF` (42_buffer_compare.md), which runs over one `Issue` step, one `Chunk` step per chunk
and one `Complete` step.
-/

namespace Sys2Proof.Machine

/-- The `Issue` step of `CMPBUF a, b, length` (42_buffer_compare.md R83): enabled when `PHASE = IDLE`; no read is made and
the precondition on the buffers is not tested. While `busy = 1` a command is not accepted and has no effect
(70_reset_and_hazards.md R143; log 8). -/
def execCmpbuf (opa opb len : Word) (s : State) : Host.Outcome State Fault Refusal :=
  match s.phase with
  | .run  => .next s
  | .idle =>
    .next ((s.emit [.issue 2 opa opb len]).startBuffer
      (baseOperand s.params opa) (baseOperand s.params opb) (lengthOperand s.params len))

/-- The `Chunk` step (42_buffer_compare.md R85): read A, then read B, compare, accumulate. A read without a value faults
(60_exceptions.md R119), that of A before that of B (R124). -/
def chunkStep (s : State) : Host.Outcome State Fault Refusal :=
  let size  := chunkSize s.len.toNat s.k.toNat
  let addrA := s.baseA.toNat + chunkOffset s.len.toNat s.k.toNat
  let addrB := s.baseB.toNat + chunkOffset s.len.toNat s.k.toNat
  match memRead s.params s.mem addrA size with
  | none    => .fault (s.unreadable addrA size .a)
  | some va =>
    let s' := s.emit [.read addrA size va]
    match memRead s.params s.mem addrB size with
    | none    => .fault (s'.unreadable addrB size .b)
    | some vb => .next ((s'.emit [.read addrB size vb]).accumulate (chunkBit size va vb))

/-- The `Complete` step (42_buffer_compare.md R89). -/
def completeStep (s : State) : Host.Outcome State Fault Refusal :=
  .next (s.publish s.acc).toIdle

end Sys2Proof.Machine
end

