-- ==== Sys2Proof/Machine/ReservedOp.lean ====
section
/-!
DEFINITION. The reserved code `op = 3` (30_encoding.md R57).
-/

namespace Sys2Proof.Machine

/-- A command transfer with `op = 3`: "A model treats it as `refuse ReservedOp`" (30_encoding.md R57), the four fields
recorded (60_exceptions.md R120); "A model must not give `op = 3` a meaning" (93_implementation_defined.md U5; log 10). -/
def execReserved (opa opb len : Word) (_s : State) : Host.Outcome State Fault Refusal :=
  .refused (.reservedOp 3 opa opb len)

end Sys2Proof.Machine
end

