-- ==== Sys2Proof/Machine/Scalar64.lean ====
section
/-!
DEFINITION. The 64-bit family: `CMP64` (41_scalar_compare64.md).
-/

namespace Sys2Proof.Machine

/-- `CMP64 b, c` (41_scalar_compare64.md R76): enabled when `PHASE = IDLE`, one `Issue` step that also publishes the result.
While `busy = 1` a command is not accepted and has no effect (70_reset_and_hazards.md R143; log 8). -/
def execCmp64 (opa opb len : Word) (s : State) : Host.Outcome State Fault Refusal :=
  match s.phase with
  | .run  => .next s
  | .idle =>
    .next ((s.emit [.issue 1 opa opb len]).publish (eq64 (wordOperand opa) (wordOperand opb)))

end Sys2Proof.Machine
end

