-- ==== Sys2Proof/Machine/Scalar8.lean ====
section
/-!
DEFINITION. The 8-bit family: `CMP8` (40_scalar_compare8.md).
-/

namespace Sys2Proof.Machine

/-- `CMP8 b, c` (40_scalar_compare8.md R68): enabled when `PHASE = IDLE`, one `Issue` step that also publishes the result.
While `busy = 1` a command is not accepted and has no effect (70_reset_and_hazards.md R143; log 8). -/
def execCmp8 (opa opb len : Word) (s : State) : Host.Outcome State Fault Refusal :=
  match s.phase with
  | .run  => .next s
  | .idle =>
    .next ((s.emit [.issue 0 opa opb len]).publish (eq8 (byteOperand opa) (byteOperand opb)))

end Sys2Proof.Machine
end

