-- ==== Sys2Proof/Machine/Dispatch.lean ====
section
/-!
DEFINITION. From an instruction to its meaning: the `Issue` step of each command.
-/

namespace Sys2Proof.Machine

def exec (i : Instr) (s : State) : Host.Outcome State Fault Refusal :=
  match i with
  | .cmp8 opa opb len => Sys2Proof.Machine.execCmp8 opa opb len s
  | .cmp64 opa opb len => Sys2Proof.Machine.execCmp64 opa opb len s
  | .cmpbuf opa opb len => Sys2Proof.Machine.execCmpbuf opa opb len s
  | .reserved opa opb len => Sys2Proof.Machine.execReserved opa opb len s

end Sys2Proof.Machine
end

