-- ==== Sys2Proof/WellFormed.lean ====
section
/-!
DEFINITION. Which instructions can stand on the ports of a block with given widths.
"every `(opa, opb, len)` is legal with every `op` in {0, 1, 2}" (30_encoding.md R58), so the one check is that the
`len` field has no bit above the `LEN_W` bits of its port (30_encoding.md R51).
-/

namespace Sys2Proof

/-- The value fits a port of `w` bits. -/
def fitsWidth (w : Nat) (v : Word) : Bool := decide (v.toNat < 2 ^ w)

/-- Well-formed for the widths `p`: `len` fits its `LEN_W`-bit port (30_encoding.md R51, R53). -/
def Instr.wellFormed (p : Params) : Instr → Bool
  | .cmp8 _ _ len     => fitsWidth p.lenW len
  | .cmp64 _ _ len    => fitsWidth p.lenW len
  | .cmpbuf _ _ len   => fitsWidth p.lenW len
  | .reserved _ _ len => fitsWidth p.lenW len

end Sys2Proof
end

