-- ==== Sys2Proof/Decode.lean ====
section
/-!
DEFINITION. Decoding a command by its `op` field (30_encoding.md R53, R59), the encoder beside it, and the model's own
byte record of a command.

The spec gives a command no packed layout: "its four fields travel on four ports" (R53). Where a command must be one
number or one list of bytes, the model writes 25 bytes (log 11): byte 0 holds `op` in bits 1:0 (bits 7:2 are no port's and
are ignored), bytes 1..8 `opa`, bytes 9..16 `opb`, bytes 17..24 `len`, each lowest byte first.
-/

namespace Sys2Proof

/-- The decoder: it "reads `op` and nothing else to tell the operation" and is total (30_encoding.md R59). -/
def decode (c : Command) : Instr :=
  match c.op.toNat with
  | 0 => .cmp8 c.opa c.opb c.len
  | 1 => .cmp64 c.opa c.opb c.len
  | 2 => .cmpbuf c.opa c.opb c.len
  | _ => .reserved c.opa c.opb c.len

/-- The encoder, from the table of 30_encoding.md R53. -/
def encode : Instr → Command
  | .cmp8 opa opb len     => { op := 0, opa := opa, opb := opb, len := len }
  | .cmp64 opa opb len    => { op := 1, opa := opa, opb := opb, len := len }
  | .cmpbuf opa opb len   => { op := 2, opa := opa, opb := opb, len := len }
  | .reserved opa opb len => { op := 3, opa := opa, opb := opb, len := len }

/-- The low `8 * n` bits of a number as `n` bytes, lowest first. -/
def leBytes : Nat → Nat → List Byte
  | 0, _     => []
  | n + 1, v => BitVec.ofNat 8 v :: leBytes n (v / 256)

/-- The number a list of bytes stands for, lowest byte first. -/
def leValue : List Byte → Nat
  | []      => 0
  | b :: bs => b.toNat + 256 * leValue bs

/-- Why a list of bytes is no record of a command. -/
inductive DecodeError where
  /-- Fewer than the 25 bytes of a record: that many were there. -/
  | truncated (have_ : Nat)
  deriving DecidableEq, Repr

/-- The byte record of a command (log 11). -/
def Command.toBytes (c : Command) : List Byte :=
  BitVec.ofNat 8 c.op.toNat :: (leBytes 8 c.opa.toNat ++ leBytes 8 c.opb.toNat ++ leBytes 8 c.len.toNat)

/-- The command of a byte record, and the bytes after it (log 11). -/
def Command.ofBytes : List Byte → Except DecodeError (Command × List Byte)
  | [] => .error (.truncated 0)
  | b :: bs =>
    if bs.length < 24 then .error (.truncated (bs.length + 1))
    else .ok ({ op  := BitVec.ofNat 2 b.toNat
                opa := BitVec.ofNat 64 (leValue (bs.take 8))
                opb := BitVec.ofNat 64 (leValue ((bs.drop 8).take 8))
                len := BitVec.ofNat 64 (leValue ((bs.drop 16).take 8)) }, bs.drop 24)

/-- Decoding bytes: total, a short record refused by name. -/
def decodeBytes (bs : List Byte) : Except DecodeError (Instr × List Byte) :=
  match Command.ofBytes bs with
  | .ok (c, rest) => .ok (decode c, rest)
  | .error e      => .error e

/-- An instruction as its 25 bytes. -/
def encodeBytes (i : Instr) : List Byte := (encode i).toBytes

/-- The 25 bytes of a command whose low `nbits` bits are `w` and whose other bits are 0. -/
def tableBytes (nbits w : Nat) : List Byte := leBytes 25 (w % 2 ^ nbits)

/-- The instruction the decoder reads from an instruction whose bits are `w`, numbered as the opcode table numbers them. -/
def decodeTableWord (nbits w : Nat) : Option Instr :=
  match decodeBytes (tableBytes nbits w) with
  | .ok (i, _) => some i
  | .error _   => none

/-- The command those bits stand for: what the host hands over on the command port. -/
def commandOfTableWord (nbits w : Nat) : Option Command :=
  match Command.ofBytes (tableBytes nbits w) with
  | .ok (c, _) => some c
  | .error _   => none

end Sys2Proof
end

