-- ==== Sys2Proof/Machine/Sequence.lean ====
section
/-!
DEFINITION. Which step comes next (10_state.md R16, 43_common_laws.md R103) and how the host's list drives the block (log 6).
Everything here is called by Machine/Step.lean.
-/

namespace Sys2Proof.Machine

/-- The block's own step with no command handed over (10_state.md R16): in `RUN`, `Chunk` while `K < NCH` and `Complete` when
`K = NCH`; where no step is enabled the state stays as it is (log 7, 17). The test is of `K` and `LEN` alone. -/
def blockStep (s : State) : Host.Outcome State Fault Refusal :=
  match s.phase with
  | .idle => .next s
  | .run  =>
    if s.k.toNat < numChunks s.len.toNat then chunkStep s
    else if s.k.toNat = numChunks s.len.toNat then completeStep s
    else .next s

/-- One step of the machine, `issue` being the `Issue` step of a decoded command. The host's next entry is taken: `reset`
wins over everything (60_exceptions.md R124); a presented command is handed over when `PHASE = IDLE` (30_encoding.md R52)
and otherwise stays presented while the block takes its own step (70_reset_and_hazards.md R143; log 8). -/
def advance (issue : Instr → State → Host.Outcome State Fault Refusal) (s : State) : Host.Outcome State Fault Refusal :=
  match s.host with
  | [] => blockStep s
  | .reset :: rest => .next (s.withHost rest).resetBlock
  | .pass :: rest => blockStep (s.withHost rest)
  | .store addr v :: rest => .next ((s.withHost rest).callerStore addr v)
  | .release addr :: rest => .next ((s.withHost rest).callerRelease addr)
  | .present c :: rest =>
    match s.phase with
    | .idle => issue (decode (Command.onPorts s.params c)) (s.withHost rest)
    | .run  => blockStep s

/-- The state with a command put at the head of the host's list and the block idle, so that the next step hands it over
(log 11). -/
def State.presentNext (s : State) (c : Command) : State :=
  { s with phase := .idle, host := .present c :: s.host }

end Sys2Proof.Machine
end

