-- ==== Sys2Proof/Machine/Step.lean ====
section
/-!
DEFINITION. The step function, and placing a command so that the next step runs it.
-/

namespace Sys2Proof.Machine

/-- One step of the transition system of 00_scope.md R12. -/
def step (s : State) : Host.Outcome State Fault Refusal := advance exec s

/-- The state with the instruction whose low `nbits` bits are `w` presented next (log 11): this machine fetches nothing
(10_state.md R14), so a program comes to it as commands of the host. -/
def State.withFetchWord (s : State) (nbits w : Nat) : State :=
  match commandOfTableWord nbits w with
  | some c => s.presentNext c
  | none   => s

end Sys2Proof.Machine
end

