-- ==== Sys2Proof/Safety.lean ====
section
/-!
DEFINITION. The terms claims are written in: the caller's preconditions (42_buffer_compare.md R93), the invariants of
10_state.md R27, the trace of a `CMPBUF` command (42_buffer_compare.md R92) and what an observer without the secrets sees
(43_common_laws.md R104).
-/

namespace Sys2Proof.Machine

/-- Applies `f` to a next state and leaves a stop as it is. -/
def mapNext (f : State → State) : Host.Outcome State Fault Refusal → Host.Outcome State Fault Refusal
  | .next s    => .next (f s)
  | .fault r   => .fault r
  | .refused r => .refused r

/-- `n` steps of the machine, stopping at the first fault or refusal: the host's run of `core` (Laws/Run.lean proves it), in
the model's own types. -/
def runSteps : Nat → State → Host.Outcome State Fault Refusal
  | 0, s     => .next s
  | n + 1, s =>
    match step s with
    | .next t    => runSteps n t
    | .fault f   => .fault f
    | .refused r => .refused r

/-! ## The host between two steps -/

/-- The host neither resets the block nor passes nor touches the memory at this step: it does nothing more, or waits with a
command (log 8). -/
def HostQuiet : List HostInput → Bool
  | []                 => true
  | .present _ :: _    => true
  | .reset :: _        => false
  | .pass :: _         => false
  | .store _ _ :: _    => false
  | .release _ :: _    => false

/-- Over the next `n` steps of the block the host does nothing but pass (log 6) or wait: it neither resets the block nor
touches the memory. -/
def HostQuietFor : Nat → List HostInput → Bool
  | 0, _                   => true
  | _ + 1, []              => true
  | _ + 1, .present _ :: _ => true
  | n + 1, .pass :: rest   => HostQuietFor n rest
  | _ + 1, .reset :: _     => false
  | _ + 1, .store _ _ :: _ => false
  | _ + 1, .release _ :: _ => false

/-- What is left of such a host's list after `n` steps of a busy block: each pass is taken off, a presented command stays
presented (log 8). -/
def hostAfter : Nat → List HostInput → List HostInput
  | 0, h                 => h
  | n + 1, .pass :: rest => hostAfter n rest
  | _ + 1, h             => h

/-- The host resets the block at this step. -/
def HostResets : List HostInput → Bool
  | .reset :: _ => true
  | _           => false

/-- The host hands memory bytes over or takes them away at this step. -/
def HostTouchesMemory : List HostInput → Bool
  | .store _ _ :: _ => true
  | .release _ :: _ => true
  | _               => false

/-! ## The caller's preconditions -/

/-- `n` bytes from `addr` on lie in the address space and are readable (20_memory.md R33, R36). -/
abbrev State.ReadableAt (s : State) (addr n : Nat) : Prop :=
  addr + n ≤ Params.addrSpace s.params ∧ ∀ j < n, (s.mem.read (addr + j)).isSome

/-- The precondition of a `CMPBUF` command on one buffer (20_memory.md R36): for every `i < len`, `base + i < 2^ADDR_W` and
the byte there is readable. -/
abbrev State.BufferReadable (s : State) (base len : Nat) : Prop :=
  ∀ i < len, base + i < Params.addrSpace s.params ∧ (s.mem.read (base + i)).isSome

/-- The first `len` bytes of the two buffers agree pairwise (42_buffer_compare.md R83). -/
abbrev State.BuffersAgree (s : State) (a b len : Nat) : Prop :=
  ∀ i < len, s.mem.read (a + i) = s.mem.read (b + i)

/-! ## Invariants (10_state.md R27) -/

/-- What holds of every state a run reaches: legal widths, every register within its width, memory in canonical form and
inside the address space, and 10_state.md R27 items 1 and 3. -/
abbrev State.Inv (s : State) : Prop :=
  s.params.Legal ∧
  (s.baseA.toNat < 2 ^ s.params.addrW ∧ s.baseB.toNat < 2 ^ s.params.addrW) ∧
  (s.len.toNat < 2 ^ s.params.lenW ∧ s.k.toNat < 2 ^ s.params.lenW) ∧
  (s.mem.wf ∧ ∀ c ∈ s.mem, c.1 < Params.addrSpace s.params) ∧
  (s.rvalid = 0 → s.res = 0) ∧
  (s.phase = .run → s.k.toNat ≤ numChunks s.len.toNat ∧ s.rvalid = 0 ∧ s.res = 0)

/-- The reads of chunks `k`, `k + 1`, … of a command, given the two words each chunk read (42_buffer_compare.md R92). -/
def chunkReads (a b len : Nat) : Nat → List (Word × Word) → List Event
  | _, []             => []
  | k, (va, vb) :: ps =>
    .read (a + chunkOffset len k) (chunkSize len k) va :: .read (b + chunkOffset len k) (chunkSize len k) vb ::
      chunkReads a b len (k + 1) ps

/-- The AND of the per-chunk bits of chunks `k`, `k + 1`, … given what each read; the empty AND is 1 (42_buffer_compare.md R90). -/
def chunkBits (len : Nat) : Nat → List (Word × Word) → Bit
  | _, []             => 1
  | k, (va, vb) :: ps => chunkBit (chunkSize len k) va vb &&& chunkBits len (k + 1) ps

/-- While a command runs, the history ends in its `Issue` and the reads of the chunks worked so far, in the order of
20_memory.md R40, the latches hold its operands, and `ACC` is the AND of the bits of exactly those reads
(10_state.md R27 item 2, 42_buffer_compare.md R92). It holds whether or not the caller changes the buffers meanwhile. -/
def State.Traced (s : State) : Prop :=
  s.phase = .run →
    ∃ (opa opb len : Word) (before : List Event) (ps : List (Word × Word)),
      s.baseA = baseOperand s.params opa ∧ s.baseB = baseOperand s.params opb ∧ s.len = lengthOperand s.params len ∧
      ps.length = s.k.toNat ∧
      s.history = before ++ .issue 2 opa opb len :: chunkReads s.baseA.toNat s.baseB.toNat s.len.toNat 0 ps ∧
      s.acc = chunkBits s.len.toNat 0 ps

/-- While a command runs, `ACC` is 1 exactly if the buffers, as the memory `m` holds them, agree in the bytes of the chunks
worked so far, which are the bytes below `off(K)` (10_state.md R23). -/
def State.ComparedSoFar (s : State) (m : Memory) : Prop :=
  s.phase = .run →
    (s.acc = 1 ↔ ∀ i < chunkOffset s.len.toNat s.k.toNat, m.read (s.baseA.toNat + i) = m.read (s.baseB.toNat + i))

/-! ## The trace of a command over a memory that does not change -/

/-- What a read of this size returns on `mdata` where all its bytes are readable (0 where not, which no claim uses). -/
def Memory.valueAt (m : Memory) (addr : Nat) (size : ReadSize) : Word := (m.readLE size.bytes addr).getD 0

/-- What the two reads of chunk `k` return. -/
def Memory.chunkPair (m : Memory) (a b len k : Nat) : Word × Word :=
  (m.valueAt (a + chunkOffset len k) (chunkSize len k), m.valueAt (b + chunkOffset len k) (chunkSize len k))

/-- The `Read` events of a whole command, in order (42_buffer_compare.md R92). -/
def Memory.bufferReads (m : Memory) (a b len : Nat) : List Event :=
  chunkReads a b len 0 ((List.range (numChunks len)).map (m.chunkPair a b len))

/-- The access pattern of a command, as `(maddr, msize)` pairs: a function of the bases and the length (20_memory.md R40). -/
def accessPattern (a b len : Nat) : List (Nat × Bit) :=
  (List.range (numChunks len)).flatMap fun k =>
    let size : Bit := if k < numWords len then 1 else 0
    [(a + chunkOffset len k, size), (b + chunkOffset len k, size)]

/-! ## Hidden registers -/

/-- The five registers that reach no port, replaced (10_state.md R29). -/
def State.withHidden (s : State) (baseA baseB len k : Word) (acc : Bit) : State :=
  { s with baseA := baseA, baseB := baseB, len := len, k := k, acc := acc }

/-! ## Ignored bits (30_encoding.md R58) -/

/-- The two commands differ at most in bits that 30_encoding.md R54 to R57 call ignored. -/
abbrev Command.SameButIgnored (p : Params) (c d : Command) : Prop :=
  c.op = d.op ∧
  (c.op = 0 → c.opa.setWidth 8 = d.opa.setWidth 8 ∧ c.opb.setWidth 8 = d.opb.setWidth 8) ∧
  (c.op = 1 → c.opa = d.opa ∧ c.opb = d.opb) ∧
  (c.op = 2 → c.opa.setWidth p.addrW = d.opa.setWidth p.addrW ∧ c.opb.setWidth p.addrW = d.opb.setWidth p.addrW ∧
    c.len.setWidth p.lenW = d.len.setWidth p.lenW)

/-- An event, with the operand fields of an `Issue` event cleared; its `op` and every other event stay as they are. -/
def Event.issueCleared : Event → Event
  | .issue op _ _ _       => .issue op 0 0 0
  | .read addr size value => .read addr size value
  | .complete r           => .complete r
  | .reset                => .reset

/-- The state, with the operand fields of the `Issue` events in its history cleared. -/
def State.issuesCleared (s : State) : State := { s with history := s.history.map Event.issueCleared }

/-- An outcome, with the operand fields of `Issue` events and of a refused command cleared. -/
def outcomeIssuesCleared : Host.Outcome State Fault Refusal → Host.Outcome State Fault Refusal
  | .next s => .next s.issuesCleared
  | .fault (.unreadableMemory addr n buffer k history) =>
    .fault (.unreadableMemory addr n buffer k (history.map Event.issueCleared))
  | .refused (.reservedOp op _ _ _) => .refused (.reservedOp op 0 0 0)
  | .refused r                      => .refused r

/-! ## What is public (43_common_laws.md R104) -/

/-- A command without its secrets: the comparands of the scalar commands are secret, `op`, `len` and the bases are public. -/
def Command.erased (c : Command) : Command :=
  if c.op = 2 then c else { c with opa := 0, opb := 0 }

/-- An event without its secrets: no comparand, no value read, no result. -/
def Event.erased : Event → Event
  | .issue op opa opb len => if op = 2 then .issue op opa opb len else .issue op 0 0 len
  | .read addr size _     => .read addr size 0
  | .complete _           => .complete 0
  | .reset                => .reset

/-- A host input without its secrets: no comparand, no buffer byte. -/
def HostInput.erased : HostInput → HostInput
  | .reset        => .reset
  | .present c    => .present (Command.erased c)
  | .pass         => .pass
  | .store addr _ => .store addr 0
  | .release addr => .release addr

/-- The memory without its bytes: which addresses are readable stays. -/
def Memory.erased (m : Memory) : Memory := m.map fun c => (c.1, 0)

/-- The state without its secrets: no buffer byte (which addresses are readable stays), no `ACC`, no `RES`, and events and
host inputs without theirs. `PHASE`, `RVALID`, the bases, `LEN` and `K` stay. -/
def State.erased (s : State) : State :=
  { s with
    acc     := 0
    res     := 0
    mem     := s.mem.erased
    history := s.history.map Event.erased
    host    := s.host.map HostInput.erased }

/-- An outcome without its secrets. -/
def erasedOutcome : Host.Outcome State Fault Refusal → Host.Outcome State Fault Refusal
  | .next s => .next s.erased
  | .fault (.unreadableMemory addr n buffer k history) =>
    .fault (.unreadableMemory addr n buffer k (history.map Event.erased))
  | .refused (.reservedOp op _ _ len) => .refused (.reservedOp op 0 0 len)
  | .refused r                        => .refused r

end Sys2Proof.Machine
end

