-- ==== Sys2Proof/Certificates/Slice0/Obligations.lean ====
section
/-!
DEFINITION. The statements for the provers. Each docstring names the rule of spec/ it formalises.
-/

open Sys2Proof Sys2Proof.Machine

/-! ## Encoding -/

/-- Decoding the byte record of any instruction gives it back, with every bit of every port, and leaves the bytes after it.
The byte record is the model's own (DESIGN CHOICE, log 11); the operation code in it is 30_encoding.md R53's. -/
def Obligations.DecodeOfEncodedBytesIsTheInstruction : Prop :=
  ∀ (i : Instr) (rest : List Byte), decodeBytes (encodeBytes i ++ rest) = .ok (i, rest)

/-- The other direction: what decodes is a record of 25 bytes, and encoding the instruction gives that record back, but for
bits 7:2 of its first byte, which are no port's (DESIGN CHOICE, log 11). -/
def Obligations.EncodeOfDecodedBytesIsTheRecord : Prop :=
  ∀ (bs rest : List Byte) (i : Instr), decodeBytes bs = .ok (i, rest) →
    ∃ (b : Byte) (tail : List Byte),
      bs = b :: (tail ++ rest) ∧ tail.length = 24 ∧ encodeBytes i = (b &&& 3#8) :: tail

/-- A list of bytes is refused, by name and with its length, exactly when it is shorter than a record (log 11). -/
def Obligations.OnlyShortRecordsAreRejected : Prop :=
  ∀ (bs : List Byte) (e : DecodeError),
    decodeBytes bs = .error e ↔ (bs.length < 25 ∧ e = .truncated bs.length)

/-- 30_encoding.md R59: on any 2-bit `op` the decoder answers one of the four, and `op` alone tells which. -/
def Obligations.DecoderReadsTheOperationFieldAlone : Prop :=
  ∀ c : Command,
    decode c =
      if c.op = 0 then .cmp8 c.opa c.opb c.len
      else if c.op = 1 then .cmp64 c.opa c.opb c.len
      else if c.op = 2 then .cmpbuf c.opa c.opb c.len
      else .reserved c.opa c.opb c.len

/-- The four rows of spec/opcode_table.json, operand ports zero, and the command `(1, 0x0123456789ABCDEF, 0x5A, 0x0102)`
written out as a record (sanity). The record the numbers are read as is the model's own (DESIGN CHOICE, log 11): R53 gives a
command no packed layout. The operation codes in bits 1:0 are R53's. -/
def Obligations.SampleWordsDecode : Prop :=
  decodeTableWord 8 0 = some (.cmp8 0 0 0) ∧ decodeTableWord 8 1 = some (.cmp64 0 0 0) ∧
  decodeTableWord 8 2 = some (.cmpbuf 0 0 0) ∧ decodeTableWord 8 3 = some (.reserved 0 0 0) ∧
  decodeTableWord 200 0x0000000000000102000000000000005A0123456789ABCDEF01 =
    some (.cmp64 0x0123456789ABCDEF 0x5A 0x0102)

/-- What the ports carry is well-formed for their widths, whatever the host presents (30_encoding.md R51; log 20). -/
def Obligations.PortsCarryWellFormedCommands : Prop :=
  ∀ (p : Params) (c : Command), (decode (Command.onPorts p c)).wellFormed p = true

/-! ## One step -/

/-- 30_encoding.md R52: with `busy = 0` a presented command is handed over, and the step is the `Issue` step of the decoded
instruction, the command taken off the host's list. A well-formed instruction is decoded as presented; any other loses the
`len` bits its port does not have (log 20). -/
def Obligations.StepIssuesThePresentedCommand : Prop :=
  ∀ (s : State) (c : Command) (rest : List HostInput),
    s.phase = .idle → s.host = .present c :: rest →
      step s = exec (decode (Command.onPorts s.params c)) (s.withHost rest) ∧
      ∀ i : Instr, decode c = i → i.wellFormed s.params = true → step s = exec i (s.withHost rest)

/-- 70_reset_and_hazards.md R143: a command presented while `busy = 1` is not accepted and has no effect: the block takes the
step it takes with nothing presented, and the command is still presented afterwards. Handed to `exec` while `busy = 1`, a
command of the three operations changes nothing. That the command stays presented instead of being presented again by the host,
and what `exec` answers there, are the model's (DEDUCED, log 8). -/
def Obligations.CommandWhileBusyHasNoEffect : Prop :=
  (∀ (s : State) (c : Command) (rest : List HostInput),
    s.phase = .run → s.host = .present c :: rest →
      step s = mapNext (fun t => t.withHost (.present c :: rest)) (step (s.withHost []))) ∧
  (∀ (s : State) (opa opb len : Word), s.phase = .run →
    exec (.cmp8 opa opb len) s = .next s ∧ exec (.cmp64 opa opb len) s = .next s ∧
    exec (.cmpbuf opa opb len) s = .next s)

/-- An idle block that is given no command waits (60_exceptions.md R129; the model's waiting step is log 7). -/
def Obligations.IdleBlockWaits : Prop :=
  ∀ s : State, s.phase = .idle →
    (s.host = [] → step s = .next s) ∧
    (∀ rest, s.host = .pass :: rest → step s = .next (s.withHost rest))

/-- 70_reset_and_hazards.md R136: `Reset` is enabled in every state, gives `PHASE = IDLE`, `RVALID = 0`, `RES = 0`, makes no
memory access and emits one `Reset` event. After it no step of the block's own is enabled, and `Issue` is: each of the three
operations is accepted. That a step with nothing enabled answers the state unchanged, by which the first is said, is the
model's (DESIGN CHOICE, log 7). -/
def Obligations.ResetStepClearsThePortsInEveryState : Prop :=
  ∀ (s : State) (rest : List HostInput), s.host = .reset :: rest →
    ∃ t, step s = .next t ∧ t.phase = .idle ∧ t.rvalid = 0 ∧ t.res = 0 ∧
      t.history = s.history ++ [.reset] ∧ t.mem = s.mem ∧ t.params = s.params ∧ t.host = rest ∧
      blockStep t = .next t ∧
      ∀ (c : Command) (after : List HostInput), c.op ≠ 3 → ∃ u, step (t.withHost (.present c :: after)) = .next u

/-- 70_reset_and_hazards.md R137: reset during `RUN` abandons the command with no `Complete` event and no result, the reads
already made stay in the history, and what follows is the same whatever `ACC` was. Reset is the only way to end a command
before its last chunk. -/
def Obligations.ResetDuringRunAbandonsTheCommand : Prop :=
  (∀ (s : State) (rest : List HostInput) (acc : Bit), s.phase = .run → s.host = .reset :: rest →
    (∃ t, step s = .next t ∧ t.phase = .idle ∧ t.rvalid = 0 ∧ t.res = 0 ∧ t.history = s.history ++ [.reset]) ∧
    step { s with acc := acc } = step s) ∧
  (∀ s t : State, s.phase = .run → s.k.toNat < numChunks s.len.toNat → step s = .next t → t.phase = .idle →
    HostResets s.host = true)

/-- 10_state.md R29: the three registers it gives a value after reset; and the five it leaves unspecified are read by no step
of an idle block before they are written. The three commands: `CMPBUF` goes on the same whatever they held, a scalar command
gives the same but for them, unread and unwritten. Every step of the machine from an idle block, whatever the host does: reset
and the `Issue` of `CMPBUF` give the same whatever they held, and every other step (a scalar command, a refused one, waiting,
passing, a store, a release) gives the same but for them. The steps that are the host's own are the model's (DESIGN CHOICE,
log 6 and 7), and so are the free values a `Reset` step writes (log 4). The zeros of State.reset are its own choice too
(log 3), and not stated. -/
def Obligations.ResetValuesAndHiddenRegistersUnread : Prop :=
  (State.reset.phase = .idle ∧ State.reset.rvalid = 0 ∧ State.reset.res = 0) ∧
  ∀ (s : State) (baseA baseB len k : Word) (acc : Bit), s.phase = .idle →
    (∀ opa opb l : Word,
      exec (.cmpbuf opa opb l) (s.withHidden baseA baseB len k acc) = exec (.cmpbuf opa opb l) s ∧
      exec (.cmp8 opa opb l) (s.withHidden baseA baseB len k acc) =
        mapNext (fun t => t.withHidden baseA baseB len k acc) (exec (.cmp8 opa opb l) s) ∧
      exec (.cmp64 opa opb l) (s.withHidden baseA baseB len k acc) =
        mapNext (fun t => t.withHidden baseA baseB len k acc) (exec (.cmp64 opa opb l) s)) ∧
    (HostResets s.host = true → step (s.withHidden baseA baseB len k acc) = step s) ∧
    (∀ c rest, s.host = .present c :: rest → c.op = 2 → step (s.withHidden baseA baseB len k acc) = step s) ∧
    (HostResets s.host = false → (∀ c rest, s.host = .present c :: rest → c.op ≠ 2) →
      step (s.withHidden baseA baseB len k acc) = mapNext (fun t => t.withHidden baseA baseB len k acc) (step s))

/-! ## The comparators -/

/-- 43_common_laws.md R101, at the two widths of the block: the exact sum `x + 1` carries exactly when `x` is all ones, and
then wraps to 0; otherwise its low bits are `x + 1`. -/
def Obligations.CarryOutExactlyOfAllOnes : Prop :=
  (∀ x : BitVec 8,
    (carryOut (addExact x 1#8) = 1 ↔ x.toNat = 2 ^ 8 - 1) ∧
    (x.toNat = 2 ^ 8 - 1 → (addExact x 1#8).setWidth 8 = 0#8) ∧
    (x.toNat ≠ 2 ^ 8 - 1 → carryOut (addExact x 1#8) = 0 ∧ ((addExact x 1#8).setWidth 8).toNat = x.toNat + 1)) ∧
  (∀ x : BitVec 64,
    (carryOut (addExact x 1#64) = 1 ↔ x.toNat = 2 ^ 64 - 1) ∧
    (x.toNat = 2 ^ 64 - 1 → (addExact x 1#64).setWidth 64 = 0#64) ∧
    (x.toNat ≠ 2 ^ 64 - 1 → carryOut (addExact x 1#64) = 0 ∧ ((addExact x 1#64).setWidth 64).toNat = x.toNat + 1))

/-- 40_scalar_compare8.md R69: for all 8-bit `b`, `c`. -/
def Obligations.ByteComparatorDecidesEquality : Prop :=
  ∀ b c : Byte, (b = c → eq8 b c = 1) ∧ (b ≠ c → eq8 b c = 0)

/-- 41_scalar_compare64.md R77: for all 64-bit `b`, `c`, with the two formulas for `x` and `s`. -/
def Obligations.WordComparatorDecidesEquality : Prop :=
  ∀ b c : Word,
    (b = c → eq64 b c = 1) ∧ (b ≠ c → eq64 b c = 0) ∧
    (cmpX64 b c).toNat = 2 ^ 64 - 1 - (b ^^^ c).toNat ∧ (cmpSum64 b c).toNat = 2 ^ 64 - (b ^^^ c).toNat

/-- 40_scalar_compare8.md R70, its formulas for the intermediates. -/
def Obligations.ByteIntermediatesFollowTheDifference : Prop :=
  ∀ b c : Byte,
    (b ^^^ 0xFF#8).toNat = 0xFF - b.toNat ∧ (cmpX8 b c).toNat = 0xFF - (b ^^^ c).toNat ∧
    (cmpSum8 b c).toNat = 0x100 - (b ^^^ c).toNat ∧ (carryOut (cmpSum8 b c) = 1 ↔ b ^^^ c = 0)

/-- 40_scalar_compare8.md R72, its four items. -/
def Obligations.ByteComparatorListedProperties : Prop :=
  ∀ b : Byte,
    eq8 b b = 1 ∧
    (∃! c : Byte, eq8 b c = 1) ∧
    (∀ c : Byte, eq8 b c = eq8 c b ∧ cmpX8 b c = cmpX8 c b) ∧
    (∀ c : Byte, (eq8 b c).toNat = 0 ∨ (eq8 b c).toNat = 1)

/-- 41_scalar_compare64.md R80: the two comparators agree on zero-extended bytes, and the two commands take different slices
of their ports: on the ports `0x15A` and `0x05A` `CMP64` gives 0 and `CMP8` gives 1. -/
def Obligations.WordComparatorExtendsTheByteComparator : Prop :=
  (∀ b c : Byte, eq64 (b.setWidth 64) (c.setWidth 64) = eq8 b c) ∧
  (∀ (s : State) (len : Word), s.phase = .idle →
    ∃ t u, exec (.cmp64 0x15A 0x05A len) s = .next t ∧ t.res = 0 ∧
      exec (.cmp8 0x15A 0x05A len) s = .next u ∧ u.res = 1)

/-! ## The scalar commands -/

/-- 40_scalar_compare8.md R68: `CMP8` in `IDLE` completes in its one `Issue` step; the whole next state. -/
def Obligations.CompareByteCompletes : Prop :=
  ∀ (s : State) (opa opb len : Word), s.phase = .idle →
    let b : Byte := opa.extractLsb' 0 8
    let c : Byte := opb.extractLsb' 0 8
    let cy : Bit := (((b ^^^ 0xFF#8) ^^^ c).setWidth 9 + 0x01#9).extractLsb' 8 1
    exec (.cmp8 opa opb len) s =
      .next { s with res := cy, rvalid := 1, history := s.history ++ [.issue 0 opa opb len, .complete cy] } ∧
    (encode (.cmp8 opa opb len)).op = 0 ∧
    cy = if b = c then 1 else 0

/-- 41_scalar_compare64.md R76: `CMP64` in `IDLE` completes in its one `Issue` step; the whole next state. -/
def Obligations.CompareWordCompletes : Prop :=
  ∀ (s : State) (opa opb len : Word), s.phase = .idle →
    let cy : Bit := (((opa ^^^ 0xFFFFFFFFFFFFFFFF#64) ^^^ opb).setWidth 65 + 1#65).extractLsb' 64 1
    exec (.cmp64 opa opb len) s =
      .next { s with res := cy, rvalid := 1, history := s.history ++ [.issue 1 opa opb len, .complete cy] } ∧
    (encode (.cmp64 opa opb len)).op = 1 ∧
    cy = if opa = opb then 1 else 0

/-- 30_encoding.md R58 with R54 to R56: two commands of one operation that differ in ignored bits alone leave the same state
and append the same events, but that the `Issue` event records the fields as issued. -/
def Obligations.IgnoredBitsChangeNothing : Prop :=
  ∀ (s : State) (opa opb len opa' opb' len' : Word), s.phase = .idle →
    (opa.setWidth 8 = opa'.setWidth 8 → opb.setWidth 8 = opb'.setWidth 8 →
      mapNext State.issuesCleared (exec (.cmp8 opa opb len) s) =
      mapNext State.issuesCleared (exec (.cmp8 opa' opb' len') s)) ∧
    mapNext State.issuesCleared (exec (.cmp64 opa opb len) s) =
      mapNext State.issuesCleared (exec (.cmp64 opa opb len') s) ∧
    (opa.setWidth s.params.addrW = opa'.setWidth s.params.addrW →
      opb.setWidth s.params.addrW = opb'.setWidth s.params.addrW →
      len.setWidth s.params.lenW = len'.setWidth s.params.lenW →
      mapNext State.issuesCleared (exec (.cmpbuf opa opb len) s) =
      mapNext State.issuesCleared (exec (.cmpbuf opa' opb' len') s))

/-- The frame of the three commands: what an `Issue` step leaves unchanged. `RES`, `RVALID` and the history are written by
all three; `PHASE` and the five hidden registers by `CMPBUF` alone; every byte of memory reads as before. -/
def Obligations.IssueStepFrame : Prop :=
  ∀ (i : Instr) (s t : State), exec i s = .next t →
    t.params = s.params ∧ t.host = s.host ∧ t.draws = s.draws ∧ (∀ a, t.mem.read a = s.mem.read a) ∧
    (match i with
     | .cmpbuf _ _ _     => True
     | .cmp8 _ _ _       => t.phase = s.phase ∧ t.baseA = s.baseA ∧ t.baseB = s.baseB ∧ t.len = s.len ∧ t.k = s.k ∧ t.acc = s.acc
     | .cmp64 _ _ _      => t.phase = s.phase ∧ t.baseA = s.baseA ∧ t.baseB = s.baseB ∧ t.len = s.len ∧ t.k = s.k ∧ t.acc = s.acc
     | .reserved _ _ _   => False)

/-! ## The reserved code -/

/-- 60_exceptions.md R120: a command transfer with `op = 3` is refused, the four fields recorded; a command with `op` in
{0, 1, 2} is never refused, whatever its operands. That the `len` recorded of a transfer is the presented one without the bits
its port does not have is the model's (DEDUCED, log 20). -/
def Obligations.ReservedCodeIsRefused : Prop :=
  (∀ (s : State) (opa opb len : Word), exec (.reserved opa opb len) s = .refused (.reservedOp 3 opa opb len)) ∧
  (∀ (s : State) (i : Instr) (r : Refusal), exec i s = .refused r →
    ∃ opa opb len, i = .reserved opa opb len ∧ r = .reservedOp 3 opa opb len) ∧
  (∀ (s : State) (c : Command) (rest : List HostInput), s.phase = .idle → s.host = .present c :: rest → c.op = 3 →
    step s = .refused (.reservedOp 3 c.opa c.opb (lowBits s.params.lenW c.len)))

/-! ## CMPBUF step by step -/

/-- The `Issue` step of `CMPBUF` (42_buffer_compare.md R83): the whole next state. No read is made and nothing about the
buffers is asked. -/
def Obligations.CompareBufferIssues : Prop :=
  ∀ (s : State) (opa opb len : Word), s.phase = .idle →
    exec (.cmpbuf opa opb len) s =
      .next { s with
        baseA := (opa.setWidth s.params.addrW).setWidth 64
        baseB := (opb.setWidth s.params.addrW).setWidth 64
        len := (len.setWidth s.params.lenW).setWidth 64
        k := 0, acc := 1, res := 0, rvalid := 0, phase := .run
        history := s.history ++ [.issue 2 opa opb len] } ∧
    (encode (.cmpbuf opa opb len)).op = 2

/-- 42_buffer_compare.md R86: a word chunk reads the two little-endian words, and its bit is 1 exactly when the eight bytes
agree; with the whole next state of the `Chunk` step. -/
def Obligations.WordChunkComparesEightBytes : Prop :=
  ∀ s : State, s.Inv → s.phase = .run → HostQuiet s.host = true → s.k.toNat < s.len.toNat / 8 →
    let addrA := s.baseA.toNat + 8 * s.k.toNat
    let addrB := s.baseB.toNat + 8 * s.k.toNat
    s.ReadableAt addrA 8 → s.ReadableAt addrB 8 →
      ∃ va vb : Word,
        (∀ j < 8, s.mem.read (addrA + j) = some (va.extractLsb' (8 * j) 8) ∧
                  s.mem.read (addrB + j) = some (vb.extractLsb' (8 * j) 8)) ∧
        (eq64 va vb = 1 ↔ ∀ j < 8, s.mem.read (addrA + j) = s.mem.read (addrB + j)) ∧
        step s = .next { s with
          acc := s.acc &&& eq64 va vb, k := BitVec.ofNat 64 (s.k.toNat + 1)
          history := s.history ++ [.read addrA .eight va, .read addrB .eight vb] }

/-- 42_buffer_compare.md R87: a tail chunk reads one byte of each buffer, and its bit is 1 exactly when they are equal; with
the whole next state of the `Chunk` step. -/
def Obligations.TailChunkComparesOneByte : Prop :=
  ∀ s : State, s.Inv → s.phase = .run → HostQuiet s.host = true →
    s.len.toNat / 8 ≤ s.k.toNat → s.k.toNat < s.len.toNat / 8 + s.len.toNat % 8 →
    let off := 8 * (s.len.toNat / 8) + (s.k.toNat - s.len.toNat / 8)
    s.ReadableAt (s.baseA.toNat + off) 1 → s.ReadableAt (s.baseB.toNat + off) 1 →
      ∃ va vb : Byte,
        s.mem.read (s.baseA.toNat + off) = some va ∧ s.mem.read (s.baseB.toNat + off) = some vb ∧
        (eq8 va vb = 1 ↔ va = vb) ∧
        step s = .next { s with
          acc := s.acc &&& eq8 va vb, k := BitVec.ofNat 64 (s.k.toNat + 1)
          history := s.history ++ [.read (s.baseA.toNat + off) .one (va.setWidth 64), .read (s.baseB.toNat + off) .one (vb.setWidth 64)] }

/-- 42_buffer_compare.md R88: the accumulation is eager. A `Chunk` step with any `ACC` is the step with `ACC = 1` but that the
old `ACC` is ANDed in: same reads, same faults, same `K`; and once `ACC = 0` it stays 0. -/
def Obligations.AccumulationIsEager : Prop :=
  ∀ s : State, s.phase = .run → HostQuiet s.host = true → s.k.toNat < numChunks s.len.toNat →
    (∀ acc : Bit, step { s with acc := acc } = mapNext (fun t => { t with acc := acc &&& t.acc }) (step { s with acc := 1 })) ∧
    (∀ t, s.acc = 0 → step s = .next t → t.acc = 0)

/-- 42_buffer_compare.md R89: `Complete`, the whole next state. -/
def Obligations.CompletePublishesTheAccumulator : Prop :=
  ∀ s : State, s.phase = .run → HostQuiet s.host = true → s.k.toNat = numChunks s.len.toNat →
    step s = .next { s with
      res := s.acc, rvalid := 1, phase := .idle, history := s.history ++ [.complete s.acc] }

/-- 60_exceptions.md R119 (and the order of R124): a `Chunk` step whose read of A touches an unreadable byte, or runs past the
top, faults with that read recorded; if A's read is good and B's is not, it faults with B's, A's read standing in the history.
That the fault carries the history is the model's (DEDUCED, log 9). -/
def Obligations.UnreadableBufferFaults : Prop :=
  ∀ s : State, s.phase = .run → HostQuiet s.host = true → s.k.toNat < numChunks s.len.toNat →
    let size := chunkSize s.len.toNat s.k.toNat
    let addrA := s.baseA.toNat + chunkOffset s.len.toNat s.k.toNat
    let addrB := s.baseB.toNat + chunkOffset s.len.toNat s.k.toNat
    (¬ s.ReadableAt addrA size.bytes →
      step s = .fault (.unreadableMemory addrA size.bytes .a s.k.toNat s.history)) ∧
    (s.ReadableAt addrA size.bytes → ¬ s.ReadableAt addrB size.bytes →
      ∃ va : Word,
        (∀ j < size.bytes, s.mem.read (addrA + j) = some (va.extractLsb' (8 * j) 8)) ∧
        step s = .fault (.unreadableMemory addrB size.bytes .b s.k.toNat (s.history ++ [.read addrA size va])))

/-- 60_exceptions.md R121, the complete list of outcomes other than a next state: a fault is `UnreadableMemory` of a `Chunk`
step with what it records, a refusal is `ReservedOp` of a command transfer with what it records. That the fault carries a
history, and that the `len` recorded of a transfer has lost the bits its port does not have, are the model's (DEDUCED, log 9
and 20). -/
def Obligations.EveryStopIsListed : Prop :=
  (∀ (s : State) (f : Fault), step s = .fault f →
    s.phase = .run ∧ s.k.toNat < numChunks s.len.toNat ∧
    ∃ (addr : Nat) (buffer : Buffer) (h : List Event),
      f = .unreadableMemory addr (chunkSize s.len.toNat s.k.toNat).bytes buffer s.k.toNat h ∧
      addr = (match buffer with | .a => s.baseA.toNat | .b => s.baseB.toNat) + chunkOffset s.len.toNat s.k.toNat ∧
      ¬ s.ReadableAt addr (chunkSize s.len.toNat s.k.toNat).bytes) ∧
  (∀ (s : State) (r : Refusal), step s = .refused r →
    s.phase = .idle ∧ ∃ (c : Command) (rest : List HostInput),
      s.host = .present c :: rest ∧ c.op = 3 ∧ r = .reservedOp 3 c.opa c.opb (lowBits s.params.lenW c.len))

/-! ## CMPBUF from Issue to Complete -/

/-- 42_buffer_compare.md R90, with the trace of R92 and the step count of R98: under the preconditions a `CMPBUF` command takes
`NCH + 2` steps and leaves exactly this state, its result 1 if and only if the buffers agree in every byte, whether the host
passes or waits meanwhile. That the `Issue` event records the presented `len` without the bits its port does not have is the
model's (DEDUCED, log 20), as are the host's list and what is left of it (log 6, 8). -/
def Obligations.BufferCompareComputesEquality : Prop :=
  ∀ (s : State) (c : Command) (rest : List HostInput),
    s.phase = .idle → s.host = .present c :: rest → c.op = 2 →
    HostQuietFor ((lengthOperand s.params c.len).toNat / 8 + (lengthOperand s.params c.len).toNat % 8 + 1) rest = true →
    let a := baseOperand s.params c.opa
    let b := baseOperand s.params c.opb
    let l := lengthOperand s.params c.len
    s.BufferReadable a.toNat l.toNat → s.BufferReadable b.toNat l.toNat →
    ∃ r : Bit,
      (s.BuffersAgree a.toNat b.toNat l.toNat → r = 1) ∧ (¬ s.BuffersAgree a.toNat b.toNat l.toNat → r = 0) ∧
      runSteps (l.toNat / 8 + l.toNat % 8 + 2) s = .next { s with
        phase := .idle, baseA := a, baseB := b, len := l, k := BitVec.ofNat 64 (l.toNat / 8 + l.toNat % 8)
        acc := r, res := r, rvalid := 1, host := hostAfter (l.toNat / 8 + l.toNat % 8 + 1) rest
        history := s.history ++ .issue 2 c.opa c.opb (lowBits s.params.lenW c.len) ::
          (s.mem.bufferReads a.toNat b.toNat l.toNat ++ [.complete r]) }

/-- 42_buffer_compare.md R98, 43_common_laws.md R105: not a step fewer. After `m + 1` steps, `m ≤ NCH`, the command still runs,
`m` chunks are worked, `2m` reads are made, and the host sees `rvalid = 0`, `res = 0`, whether it passes or waits (log 6, 8). -/
def Obligations.BufferCompareTakesNoFewerSteps : Prop :=
  ∀ (s : State) (c : Command) (rest : List HostInput) (m : Nat),
    s.phase = .idle → s.host = .present c :: rest → c.op = 2 → HostQuietFor m rest = true →
    let a := baseOperand s.params c.opa
    let b := baseOperand s.params c.opb
    let l := lengthOperand s.params c.len
    s.BufferReadable a.toNat l.toNat → s.BufferReadable b.toNat l.toNat → m ≤ l.toNat / 8 + l.toNat % 8 →
    ∃ t, runSteps (m + 1) s = .next t ∧ t.phase = .run ∧ t.k.toNat = m ∧ t.rvalid = 0 ∧ t.res = 0 ∧
      t.history.length = s.history.length + 1 + 2 * m

/-- 42_buffer_compare.md R94: `length = 0` takes the two steps `Issue` and `Complete`, reads nothing and answers 1, for any
bases, readable or not. A presented `len` is any whose `LEN_W` bits are 0, and the `Issue` event then records 0: that the port
drops the others is the model's (DEDUCED, log 20). The host may pass or wait meanwhile (log 6, 8). -/
def Obligations.ZeroLengthBuffersAreEqual : Prop :=
  ∀ (s : State) (c : Command) (rest : List HostInput),
    s.phase = .idle → s.host = .present c :: rest → c.op = 2 → HostQuietFor 1 rest = true →
    lengthOperand s.params c.len = 0 →
    ∃ t, runSteps 2 s = .next t ∧ t.phase = .idle ∧ t.rvalid = 1 ∧ t.res = 1 ∧ t.acc = 1 ∧
      t.history = s.history ++ [.issue 2 c.opa c.opb 0, .complete 1]

/-- 42_buffer_compare.md R95: bytes at offsets `length` and beyond never matter. Two memories that agree on the first `length`
bytes of both buffers give the same run, step for step, stop for stop. -/
def Obligations.OnlyTheFirstLengthBytesMatter : Prop :=
  ∀ (s : State) (c : Command) (m : Memory) (n : Nat),
    s.phase = .idle → s.host = [.present c] → c.op = 2 →
    (∀ i < (lengthOperand s.params c.len).toNat,
      m.read ((baseOperand s.params c.opa).toNat + i) = s.mem.read ((baseOperand s.params c.opa).toNat + i) ∧
      m.read ((baseOperand s.params c.opb).toNat + i) = s.mem.read ((baseOperand s.params c.opb).toNat + i)) →
    runSteps n { s with mem := m } =
      mapNext (fun t => { t with mem := m }) (runSteps n s)

/-- 20_memory.md R49, its consequence: with `BASEA = BASEB` the result is 1, whether the host passes or waits (log 6, 8). -/
def Obligations.AliasedBuffersAreEqual : Prop :=
  ∀ (s : State) (c : Command) (rest : List HostInput),
    s.phase = .idle → s.host = .present c :: rest → c.op = 2 →
    HostQuietFor (numChunks (lengthOperand s.params c.len).toNat + 1) rest = true →
    baseOperand s.params c.opa = baseOperand s.params c.opb →
    s.BufferReadable (baseOperand s.params c.opa).toNat (lengthOperand s.params c.len).toNat →
    ∃ t, runSteps (numChunks (lengthOperand s.params c.len).toNat + 2) s = .next t ∧
      t.phase = .idle ∧ t.rvalid = 1 ∧ t.res = 1

/-- 20_memory.md R40: the `(addr, n)` pairs of a command's `Read` events, in order, are this function of the bases and the
length alone, whatever the bytes read. -/
def Obligations.AccessPatternIsPublic : Prop :=
  ∀ (s : State) (c : Command) (rest : List HostInput),
    s.phase = .idle → s.host = .present c :: rest → c.op = 2 → HostQuiet rest = true →
    let a := baseOperand s.params c.opa
    let b := baseOperand s.params c.opb
    let l := lengthOperand s.params c.len
    s.BufferReadable a.toNat l.toNat → s.BufferReadable b.toNat l.toNat →
    ∃ t h, runSteps (numChunks l.toNat + 2) s = .next t ∧ t.history = s.history ++ h ∧
      h.filterMap Event.readPort = accessPattern a.toNat b.toNat l.toNat

/-! ## Memory -/

/-- 20_memory.md R32: the block never writes memory: every byte reads as before over every step in which the caller itself
does not touch the memory. -/
def Obligations.BlockNeverWritesMemory : Prop :=
  ∀ s t : State, HostTouchesMemory s.host = false → step s = .next t →
    t.mem = s.mem ∧ ∀ a, t.mem.read a = s.mem.read a

/-- 20_memory.md R33, R34, R35: a read of `n` bytes has a value exactly when all of them are readable and it does not run past
the top, at any alignment; the byte at `addr + j` stands in bits `8j+7 : 8j`. -/
def Obligations.ReadAssemblesLittleEndian : Prop :=
  ∀ (s : State) (addr : Nat) (size : ReadSize),
    (s.ReadableAt addr size.bytes →
      ∃ v, memRead s.params s.mem addr size = some v ∧
        ∀ j < size.bytes, s.mem.read (addr + j) = some (v.extractLsb' (8 * j) 8)) ∧
    (¬ s.ReadableAt addr size.bytes → memRead s.params s.mem addr size = none)

/-- What the caller's own writes do (20_memory.md R36, R41; the host inputs are the model's, log 6 and 19): the byte stored is
read back, the byte released is readable no more, every other byte and every register stays. -/
def Obligations.CallerStoresAndReleasesBytes : Prop :=
  ∀ (s : State) (addr : Nat) (v : Byte) (rest : List HostInput),
    (s.host = .store addr v :: rest →
      ∃ m, step s = .next { s with mem := m, host := rest } ∧
        ∀ x, m.read x = if x = addr ∧ addr < 2 ^ s.params.addrW then some v else s.mem.read x) ∧
    (s.host = .release addr :: rest →
      ∃ m, step s = .next { s with mem := m, host := rest } ∧
        ∀ x, m.read x = if x = addr then none else s.mem.read x)

/-- 10_state.md R23: the partition, and that the chunks tile `[0, LEN)` exactly. -/
def Obligations.ChunksTileTheBuffer : Prop :=
  ∀ len : Nat,
    (numWords len = len / 8 ∧ numTail len = len % 8 ∧ numChunks len = numWords len + numTail len) ∧
    (8 * numWords len + numTail len = len ∧ numChunks len ≤ len ∧ (numChunks len = len ↔ len < 8)) ∧
    (∀ k < numChunks len,
      (k < numWords len → chunkOffset len k = 8 * k ∧ (chunkSize len k).bytes = 8) ∧
      (numWords len ≤ k → chunkOffset len k = 8 * numWords len + (k - numWords len) ∧ (chunkSize len k).bytes = 1) ∧
      chunkOffset len k + (chunkSize len k).bytes ≤ len) ∧
    (∀ i < len, ∃! k, k < numChunks len ∧ chunkOffset len k ≤ i ∧ i < chunkOffset len k + (chunkSize len k).bytes)

/-- 43_common_laws.md R102: under the caller's precondition no chunk's address runs past the top, and `K + 1` does not overflow
`LEN_W` bits. -/
def Obligations.NoCounterOrAddressWraps : Prop :=
  ∀ (s : State) (base : Nat), s.len.toNat < 2 ^ s.params.lenW → s.k.toNat < numChunks s.len.toNat →
    s.BufferReadable base s.len.toNat →
    s.k.toNat + 1 ≤ numChunks s.len.toNat ∧ numChunks s.len.toNat ≤ s.len.toNat ∧
    (lowBits s.params.lenW (s.k + 1)).toNat = s.k.toNat + 1 ∧
    s.ReadableAt (base + chunkOffset s.len.toNat s.k.toNat) (chunkSize s.len.toNat s.k.toNat).bytes

/-! ## Invariants and whole-machine rules -/

/-- The reset state meets the invariants (10_state.md R27). Its widths, the zeros of its hidden registers and its empty memory are
the model's (DESIGN CHOICE, log 1, 3 and 5). -/
def Obligations.ResetMeetsTheInvariant : Prop :=
  State.reset.Inv ∧ State.reset.Traced

/-- 10_state.md R27 items 1, 3 and 4, with register widths and the memory's canonical form: every step keeps them. -/
def Obligations.EveryStepKeepsTheInvariant : Prop :=
  ∀ s t : State, s.Inv → step s = .next t → t.Inv

/-- 10_state.md R27 item 2: every step keeps `ACC` the AND of the bits of exactly the reads the history records for the
running command, in the order of 42_buffer_compare.md R92, even if the caller changes the buffers meanwhile. -/
def Obligations.EveryStepKeepsTheTrace : Prop :=
  ∀ s t : State, s.Inv → s.Traced → step s = .next t → t.Traced

/-- 10_state.md R14, R17, R18, R19: which steps write the latches and `K`. But for reset, the latches are written by `Issue` of
`CMPBUF` alone, with its operands, `K` becomes 0 there, and otherwise `K` stays or a `Chunk` step adds exactly 1. -/
def Obligations.LatchesAndIndexMoveOnlySo : Prop :=
  ∀ s t : State, s.Inv → HostResets s.host = false → step s = .next t →
    (t.baseA = s.baseA ∧ t.baseB = s.baseB ∧ t.len = s.len ∧
      (t.k = s.k ∨ (s.phase = .run ∧ s.k.toNat < numChunks s.len.toNat ∧ t.k.toNat = s.k.toNat + 1))) ∨
    (s.phase = .idle ∧ ∃ c rest, s.host = .present c :: rest ∧ c.op = 2 ∧
      t.baseA = baseOperand s.params c.opa ∧ t.baseB = baseOperand s.params c.opb ∧
      t.len = lengthOperand s.params c.len ∧ t.k = 0)

/-- 10_state.md R16: which steps change `PHASE`: `IDLE` is left by `Issue` of `CMPBUF` alone, `RUN` by reset or by `Complete`,
which needs `K = NCH`. -/
def Obligations.PhaseChangesOnlySo : Prop :=
  ∀ s t : State, step s = .next t →
    (s.phase = .idle → t.phase = .run → ∃ c rest, s.host = .present c :: rest ∧ c.op = 2) ∧
    (s.phase = .run → t.phase = .idle → HostResets s.host = true ∨
      (s.k.toNat = numChunks s.len.toNat ∧ t.rvalid = 1 ∧ t.res = s.acc))

/-- 10_state.md R21, R22: `RES` and `RVALID` hold their values until the next `Issue` or reset; what `Issue` and `Complete` write. -/
def Obligations.ResultIsHeldUntilTheNextCommand : Prop :=
  ∀ s t : State, HostResets s.host = false → step s = .next t →
    (t.res = s.res ∧ t.rvalid = s.rvalid) ∨
    (s.phase = .run ∧ s.k.toNat = numChunks s.len.toNat ∧ t.res = s.acc ∧ t.rvalid = 1) ∨
    (s.phase = .idle ∧ ∃ c rest, s.host = .present c :: rest ∧
      ((c.op = 0 ∧ t.res = eq8 (byteOperand c.opa) (byteOperand c.opb) ∧ t.rvalid = 1) ∨
       (c.op = 1 ∧ t.res = eq64 c.opa c.opb ∧ t.rvalid = 1) ∨
       (c.op = 2 ∧ t.res = 0 ∧ t.rvalid = 0)))

/-- 00_scope.md R12, R30 of 10_state.md: a step appends its events to the history, at most two, and never writes the widths. -/
def Obligations.HistoryOnlyGrows : Prop :=
  ∀ s t : State, step s = .next t →
    t.params = s.params ∧ ∃ es, t.history = s.history ++ es ∧ es.length ≤ 2

/-- 42_buffer_compare.md R96: while a command runs the host sees `busy = 1`, `rvalid = 0`, `res = 0`, and no port shows `ACC`. -/
def Obligations.RunningCommandShowsNothing : Prop :=
  ∀ s : State, s.Inv → s.phase = .run →
    (s.busyPort = 1 ∧ s.rvalidPort = 0 ∧ s.resPort = 0) ∧
    ∀ acc : Bit, ({ s with acc := acc } : State).busyPort = s.busyPort ∧
      ({ s with acc := acc } : State).rvalidPort = s.rvalidPort ∧ ({ s with acc := acc } : State).resPort = s.resPort

/-- 30_encoding.md R60: in a container of any width the result is the number 0 or the number 1, the bit `res` itself. -/
def Obligations.WidenedResultIsZeroOrOne : Prop :=
  ∀ (s : State) (n : Nat), 0 < n →
    (s.resultWidened n).toNat = s.res.toNat ∧ ((s.resultWidened n).toNat = 0 ∨ (s.resultWidened n).toNat = 1)

/-! ## Constant time, in the form an untimed model can state it (43_common_laws.md R104, R111) -/

/-- 43_common_laws.md R103, R104, one step: two states that differ in secrets alone (comparands, buffer bytes, `ACC`, `RES`) take
steps that differ in secrets alone: the same kind of outcome, the same phase, index, addresses and sizes. -/
def Obligations.StepLeaksNoSecret : Prop :=
  ∀ s s' : State, s.erased = s'.erased → erasedOutcome (step s) = erasedOutcome (step s')

/-- 43_common_laws.md R104, R105, whole runs: from two states that differ in secrets alone, after any number of steps everything
but the secrets is the same: equal step counts, equal access patterns. -/
def Obligations.RunsLeakNoSecret : Prop :=
  ∀ (n : Nat) (s s' : State), s.erased = s'.erased →
    erasedOutcome (runSteps n s) = erasedOutcome (runSteps n s')

/-! ## The host beside a running command -/

/-- A host that passes (DESIGN CHOICE, log 6) lets the block take the step it takes with nothing presented, and the pass is
taken off the list: in `RUN` that is `Chunk` or `Complete` (10_state.md R16), so what the statements above say of a quiet host
holds of a passing one; in `IDLE` the block waits (log 7). -/
def Obligations.PassLetsTheBlockStep : Prop :=
  ∀ (s : State) (rest : List HostInput), s.host = .pass :: rest →
    step s = mapNext (fun t => t.withHost rest) (step (s.withHost [])) ∧
    (s.phase = .run → s.k.toNat < numChunks s.len.toNat → step s = chunkStep (s.withHost rest)) ∧
    (s.phase = .run → s.k.toNat = numChunks s.len.toNat → step s = completeStep (s.withHost rest))

/-- 42_buffer_compare.md R90 with 20_memory.md R41, step by step and for every host: so long as both buffers keep the bytes a
memory `m` gives them, `ACC` says whether the bytes worked so far agree, and the step that ends the command publishes whether
all of them do. The host may pass, wait, or store and release bytes outside the buffers between two steps (DESIGN CHOICE,
log 6 and 12). -/
def Obligations.UnchangedBuffersDecideTheResult : Prop :=
  (∀ (s t : State) (opa opb len : Word) (m : Memory), s.phase = .idle → exec (.cmpbuf opa opb len) s = .next t →
    t.ComparedSoFar m) ∧
  (∀ (s t : State) (m : Memory), s.Inv → s.phase = .run → s.ComparedSoFar m →
    (∀ i < s.len.toNat, s.mem.read (s.baseA.toNat + i) = m.read (s.baseA.toNat + i) ∧
      s.mem.read (s.baseB.toNat + i) = m.read (s.baseB.toNat + i)) →
    step s = .next t →
      t.ComparedSoFar m ∧
      (HostResets s.host = false → t.phase = .idle →
        t.rvalid = 1 ∧
        (t.res = 1 ↔ ∀ i < s.len.toNat, m.read (s.baseA.toNat + i) = m.read (s.baseB.toNat + i))))

/-- 30_encoding.md R58, whole runs: two presented commands that differ in ignored bits alone run alike, step for step and stop
for stop: same result, same steps, same `Read` events, same state after, but for the operand fields that `Issue` events and a
refusal record. (What the port drops of `len` counts as ignored: DEDUCED, log 20.) -/
def Obligations.RunsIgnoreIgnoredBits : Prop :=
  ∀ (s : State) (c d : Command) (rest : List HostInput) (n : Nat),
    s.phase = .idle → Command.SameButIgnored s.params c d →
    outcomeIssuesCleared (runSteps (n + 1) (s.withHost (.present c :: rest))) =
      outcomeIssuesCleared (runSteps (n + 1) (s.withHost (.present d :: rest)))
end

