-- ==== Sys2Proof/Laws/Flags.lean ====
section
/-!
SUPPORT. The exact sum and the carry as numbers, and the comparators' `x` as the complement of the difference.
-/

namespace Sys2Proof.Machine

/-- The exact sum loses nothing (00_scope.md R8). -/
theorem addExact_toNat {n : Nat} (a b : BitVec n) : (addExact a b).toNat = a.toNat + b.toNat := by
  have ha := a.isLt
  have hb := b.isLt
  have h2 : 2 ^ (n + 1) = 2 * 2 ^ n := by rw [Nat.pow_succ, Nat.mul_comm]
  simp only [addExact, BitVec.toNat_add, BitVec.toNat_setWidth]
  rw [Nat.mod_eq_of_lt (a := a.toNat) (by omega), Nat.mod_eq_of_lt (a := b.toNat) (by omega),
    Nat.mod_eq_of_lt (by omega)]

/-- The carry is the top bit of the exact sum. -/
theorem carryOut_eq {n : Nat} (s : BitVec (n + 1)) : carryOut s = if 2 ^ n ≤ s.toNat then 1 else 0 := by
  have hs := s.isLt
  have h2 : 2 ^ (n + 1) = 2 * 2 ^ n := by rw [Nat.pow_succ, Nat.mul_comm]
  have hp := Nat.two_pow_pos n
  apply BitVec.eq_of_toNat_eq
  simp only [carryOut, BitVec.extractLsb'_toNat, Nat.shiftRight_eq_div_pow]
  split
  · have : s.toNat / 2 ^ n = 1 := by
      apply Nat.div_eq_of_lt_le <;> omega
    rw [this]
    rfl
  · rw [Nat.div_eq_of_lt (by omega)]
    rfl

/-- Complementing one operand before the XOR complements the difference. -/
theorem cmpX8_eq (b c : Byte) : cmpX8 b c = ~~~(b ^^^ c) := by
  rw [cmpX8, show (0xFF#8) = BitVec.allOnes 8 from rfl, BitVec.xor_allOnes, BitVec.not_xor_left]

theorem cmpX64_eq (b c : Word) : cmpX64 b c = ~~~(b ^^^ c) := by
  rw [cmpX64, show (0xFFFFFFFFFFFFFFFF#64) = BitVec.allOnes 64 from rfl, BitVec.xor_allOnes, BitVec.not_xor_left]

end Sys2Proof.Machine
end

