-- ==== Sys2Proof/Laws/Memory.lean ====
section
/-!
SUPPORT. The memory operations: read after write, read after erase, that each keeps the canonical form, and when a read of
several bytes has a value.
-/

namespace Sys2Proof.Machine

/-! ## Read after write and erase -/

theorem Memory.read_write (m : Memory) (x : Nat) (v : Byte) (y : Nat) :
    (m.write x v).read y = if y = x then some v else m.read y := by
  induction m with
  | nil => simp [Memory.write, Memory.read, eq_comm]
  | cons c m ih =>
    obtain ⟨a, w⟩ := c
    unfold Memory.write
    split
    · simp only [Memory.read, eq_comm (a := y)]
    · split
      · subst x
        simp only [Memory.read, eq_comm (a := y)]
        split <;> rfl
      · simp only [Memory.read, ih]
        split
        · rw [if_neg (by omega)]
        · rfl

theorem Memory.read_erase (m : Memory) (x y : Nat) :
    (m.erase x).read y = if y = x then none else m.read y := by
  induction m with
  | nil => simp [Memory.erase, Memory.read]
  | cons c m ih =>
    obtain ⟨a, w⟩ := c
    simp only [Memory.erase] at ih ⊢
    by_cases ha : a = x
    · rw [List.filter_cons_of_neg (by simpa using ha), ih]
      simp only [Memory.read]
      split
      · rfl
      · rw [if_neg (by omega)]
    · rw [List.filter_cons_of_pos (by simpa using ha)]
      simp only [Memory.read, ih]
      split
      · rw [if_neg (by omega)]
      · rfl

/-! ## The canonical form -/

theorem Memory.mem_write {m : Memory} {x : Nat} {v : Byte} {c : Host.Cell} (h : c ∈ m.write x v) :
    c = (x, v) ∨ c ∈ m := by
  induction m with
  | nil => simpa [Memory.write] using h
  | cons d m ih =>
    obtain ⟨a, w⟩ := d
    unfold Memory.write at h
    split at h
    · simpa using h
    · split at h
      · rcases List.mem_cons.1 h with h | h
        · exact .inl h
        · exact .inr (List.mem_cons_of_mem _ h)
      · rcases List.mem_cons.1 h with h | h
        · exact .inr (h ▸ List.mem_cons_self)
        · exact (ih h).imp_right (List.mem_cons_of_mem _)

theorem Memory.wf_write {m : Memory} (h : m.wf) (x : Nat) (v : Byte) : (m.write x v).wf := by
  induction m with
  | nil => simp [Memory.write, Memory.wf]
  | cons d m ih =>
    obtain ⟨a, w⟩ := d
    obtain ⟨hd, hm⟩ := List.pairwise_cons.1 h
    unfold Memory.write
    split
    · refine List.pairwise_cons.2 ⟨fun c hc => ?_, h⟩
      rcases List.mem_cons.1 hc with rfl | hc
      · assumption
      · exact Nat.lt_trans ‹x < a› (hd c hc)
    · split
      · subst x
        exact List.pairwise_cons.2 ⟨hd, hm⟩
      · refine List.pairwise_cons.2 ⟨fun c hc => ?_, ih hm⟩
        rcases Memory.mem_write hc with rfl | hc
        · show a < x
          omega
        · exact hd c hc

theorem Memory.read_writeWithin (m : Memory) (space x : Nat) (v : Byte) (y : Nat) :
    (m.writeWithin space x v).read y = if y = x ∧ x < space then some v else m.read y := by
  unfold Memory.writeWithin
  by_cases h : x < space <;> simp [h, Memory.read_write]

theorem Memory.wf_writeWithin {m : Memory} (h : m.wf) (space x : Nat) (v : Byte) : (m.writeWithin space x v).wf := by
  unfold Memory.writeWithin
  split
  · exact Memory.wf_write h x v
  · exact h

/-- A write into the address space puts no byte outside it. -/
theorem Memory.writeWithin_below {m : Memory} {space : Nat} (h : ∀ c ∈ m, c.1 < space) (x : Nat) (v : Byte) :
    ∀ c ∈ m.writeWithin space x v, c.1 < space := by
  intro c hc
  unfold Memory.writeWithin at hc
  split at hc
  · rcases Memory.mem_write hc with rfl | hc
    · assumption
    · exact h c hc
  · exact h c hc

theorem Memory.mem_erase {m : Memory} {x : Nat} {c : Host.Cell} (h : c ∈ m.erase x) : c ∈ m :=
  (List.mem_filter.1 h).1

theorem Memory.wf_erase {m : Memory} (h : m.wf) (x : Nat) : (m.erase x).wf :=
  List.Pairwise.filter _ h

theorem State.reset_mem_wf : State.reset.mem.wf := List.Pairwise.nil

/-! ## Reading several bytes -/

/-- A read of one byte more, taken apart. -/
theorem Memory.readLE_succ_some {m : Memory} {n addr : Nat} {v : Word} (h : m.readLE (n + 1) addr = some v) :
    ∃ lo hi, m.read addr = some lo ∧ m.readLE n (addr + 1) = some hi ∧ v = hi <<< 8 ||| lo.setWidth 64 := by
  rw [Memory.readLE] at h
  split at h
  · rename_i lo hi hlo hhi
    exact ⟨lo, hi, hlo, hhi, (Option.some.inj h).symm⟩
  · cases h

/-- Each byte of a value read stands in its lane, the lowest address lowest. -/
theorem Memory.readLE_lane {m : Memory} {n addr : Nat} {v : Word} (h : m.readLE n addr = some v) (hn : n ≤ 8)
    {j : Nat} (hj : j < n) : m.read (addr + j) = some (v.extractLsb' (8 * j) 8) := by
  induction n generalizing addr v j with
  | zero => omega
  | succ n ih =>
    obtain ⟨lo, hi, hlo, hhi, rfl⟩ := Memory.readLE_succ_some h
    cases j with
    | zero =>
      rw [Nat.add_zero, hlo]
      congr 1
      apply BitVec.eq_of_getLsbD_eq
      intro i hi'
      simp [hi', show i < 64 by omega]
    | succ j =>
      rw [show addr + (j + 1) = addr + 1 + j by omega, ih hhi (by omega) (j := j) (by omega)]
      congr 1
      apply BitVec.eq_of_getLsbD_eq
      intro i hi'
      simp only [BitVec.getLsbD_extractLsb', hi', decide_true, Bool.true_and, BitVec.getLsbD_or, BitVec.getLsbD_shiftLeft,
        BitVec.getLsbD_setWidth]
      rw [show 8 * (j + 1) + i - 8 = 8 * j + i by omega, BitVec.getLsbD_of_ge lo _ (by omega)]
      simp [show 8 * (j + 1) + i < 64 by omega]
      omega

/-- The bits above the bytes read are 0. -/
theorem Memory.readLE_high {m : Memory} {n addr : Nat} {v : Word} (h : m.readLE n addr = some v)
    {i : Nat} (hi : 8 * n ≤ i) : v.getLsbD i = false := by
  induction n generalizing addr v i with
  | zero =>
    obtain rfl : 0 = v := Option.some.inj h
    simp
  | succ n ih =>
    obtain ⟨lo, hi', _, hhi, rfl⟩ := Memory.readLE_succ_some h
    simp only [BitVec.getLsbD_or, BitVec.getLsbD_shiftLeft, BitVec.getLsbD_setWidth,
      BitVec.getLsbD_of_ge lo i (by omega), ih hhi (i := i - 8) (by omega)]
    simp

/-- Two values read are the same exactly when the bytes are. -/
theorem Memory.readLE_eq_iff {m : Memory} {n a b : Nat} {va vb : Word} (ha : m.readLE n a = some va)
    (hb : m.readLE n b = some vb) (hn : n ≤ 8) : va = vb ↔ ∀ j < n, m.read (a + j) = m.read (b + j) := by
  constructor
  · rintro rfl j hj
    rw [Memory.readLE_lane ha hn hj, Memory.readLE_lane hb hn hj]
  · intro h
    apply BitVec.eq_of_getLsbD_eq
    intro i hi
    by_cases hin : i < 8 * n
    · have hl := h (i / 8) (by omega)
      rw [Memory.readLE_lane ha hn (by omega), Memory.readLE_lane hb hn (by omega)] at hl
      have := congrArg (fun c : Byte => c.getLsbD (i % 8)) (Option.some.inj hl)
      simp only [BitVec.getLsbD_extractLsb', show i % 8 < 8 by omega, decide_true, Bool.true_and,
        show 8 * (i / 8) + i % 8 = i by omega] at this
      exact this
    · rw [Memory.readLE_high ha (by omega), Memory.readLE_high hb (by omega)]

/-- A read of `n` bytes has a value where all of them are readable. -/
theorem Memory.readLE_isSome {m : Memory} {n addr : Nat} :
    (m.readLE n addr).isSome ↔ ∀ j < n, (m.read (addr + j)).isSome := by
  induction n generalizing addr with
  | zero => simp [Memory.readLE]
  | succ n ih =>
    have hsplit : (m.readLE (n + 1) addr).isSome ↔ (m.read addr).isSome ∧ (m.readLE n (addr + 1)).isSome := by
      rw [Memory.readLE]
      cases m.read addr <;> cases m.readLE n (addr + 1) <;> simp
    rw [hsplit, ih]
    constructor
    · rintro ⟨h0, h⟩ j hj
      cases j with
      | zero => exact h0
      | succ j => simpa [Nat.add_assoc, Nat.add_comm 1 j] using h j (by omega)
    · intro h
      refine ⟨h 0 (by omega), fun j hj => ?_⟩
      simpa [Nat.add_assoc, Nat.add_comm 1 j] using h (j + 1) (by omega)

/-- Reading depends on the bytes read alone. -/
theorem Memory.readLE_congr {m m' : Memory} {n addr : Nat} (h : ∀ j < n, m.read (addr + j) = m'.read (addr + j)) :
    m.readLE n addr = m'.readLE n addr := by
  induction n generalizing addr with
  | zero => rfl
  | succ n ih =>
    have h0 := h 0 (by omega)
    have hs := ih (addr := addr + 1) fun j hj => by
      simpa [Nat.add_assoc, Nat.add_comm 1 j] using h (j + 1) (by omega)
    simp only [Nat.add_zero] at h0
    unfold Memory.readLE
    rw [h0, hs]

end Sys2Proof.Machine
end

