-- ==== Sys2Proof/Laws/Partition.lean ====
section
/-!
SUPPORT. The two cases of a chunk: a word of eight bytes, or one byte of the tail (10_state.md R23).
-/

namespace Sys2Proof.Machine

/-- A chunk that is worked is either a word chunk or a tail chunk, with its offset and size. -/
theorem chunk_cases {len k : Nat} (h : k < numChunks len) :
    (k < len / 8 ∧ chunkOffset len k = 8 * k ∧ chunkSize len k = .eight) ∨
    (len / 8 ≤ k ∧ k < len / 8 + len % 8 ∧ chunkOffset len k = 8 * (len / 8) + (k - len / 8) ∧
      chunkSize len k = .one) := by
  simp only [numChunks, numWords, numTail] at h
  by_cases hk : k < len / 8
  · exact .inl ⟨hk, by simp [chunkOffset, numWords, hk], by simp [chunkSize, numWords, hk]⟩
  · exact .inr ⟨by omega, h, by simp [chunkOffset, numWords, hk], by simp [chunkSize, numWords, hk]⟩

/-- No chunk reaches offset `LEN`. -/
theorem chunk_end_le {len k : Nat} (h : k < numChunks len) :
    chunkOffset len k + (chunkSize len k).bytes ≤ len := by
  rcases chunk_cases h with ⟨hk, ho, hs⟩ | ⟨hk, hk', ho, hs⟩ <;> rw [ho, hs] <;> simp only [ReadSize.bytes] <;> omega

theorem numChunks_le (len : Nat) : numChunks len ≤ len := by
  simp only [numChunks, numWords, numTail]
  omega

end Sys2Proof.Machine
end

