-- ==== Sys2Proof/Laws/PerInstr.lean ====
section
/-!
SUPPORT. Facts about every instruction as syntax, one lemma per constructor.
-/

namespace Sys2Proof.Laws.RoundTrip

/-- Decoding the command that encodes an instruction gives it back, every bit of the three operand ports with it
(30_encoding.md R53, R59). -/
def Statement (i : Instr) : Prop := decode (encode i) = i

theorem cmp8 (opa opb len : Word) : Statement (.cmp8 opa opb len) := rfl

theorem cmp64 (opa opb len : Word) : Statement (.cmp64 opa opb len) := rfl

theorem cmpbuf (opa opb len : Word) : Statement (.cmpbuf opa opb len) := rfl

theorem reserved (opa opb len : Word) : Statement (.reserved opa opb len) := rfl

end Sys2Proof.Laws.RoundTrip
end

