-- ==== Sys2Proof/Laws/Run.lean ====
section
/-!
SUPPORT. Runs of several steps, in the model's own types: taken apart at the first step or put together at the last; maps over an
outcome; a host that passes or waits.
-/

namespace Sys2Proof.Machine

/-- It is the run of the host's interface. -/
theorem runSteps_eq_run (n : Nat) (s : State) : runSteps n s = Host.Core.run core n s := by
  induction n generalizing s with
  | zero => rfl
  | succ n ih =>
    cases e : step s with
    | next t =>
      have e' : core.step s = .next t := e
      simp only [runSteps, Host.Core.run.eq_def core (n + 1) s, e, e', ih t]
      rfl
    | fault f =>
      have e' : core.step s = .fault f := e
      simp only [runSteps, Host.Core.run.eq_def core (n + 1) s, e, e']
      rfl
    | refused r =>
      have e' : core.step s = .refused r := e
      simp only [runSteps, Host.Core.run.eq_def core (n + 1) s, e, e']
      rfl

@[simp] theorem runSteps_zero (s : State) : runSteps 0 s = .next s := rfl

/-- The first step, then the rest. -/
theorem runSteps_succ (n : Nat) (s : State) :
    runSteps (n + 1) s =
      match step s with
      | .next t    => runSteps n t
      | .fault f   => .fault f
      | .refused r => .refused r := rfl

theorem runSteps_succ_next {n : Nat} {s t : State} (h : step s = .next t) : runSteps (n + 1) s = runSteps n t := by
  rw [runSteps_succ, h]

/-- A run, then one step more. -/
theorem runSteps_succ_last {n : Nat} {s t : State} (h : runSteps n s = .next t) : runSteps (n + 1) s = step t := by
  induction n generalizing s with
  | zero =>
    rw [runSteps_zero, Host.Outcome.next.injEq] at h
    rw [runSteps_succ, h]
    cases step t <;> rfl
  | succ n ih =>
    rw [runSteps_succ] at h ⊢
    cases e : step s with
    | next u =>
      rw [e] at h
      exact ih h
    | fault f =>
      rw [e] at h
      cases h
    | refused r =>
      rw [e] at h
      cases h

/-! ## Maps over an outcome -/

@[simp] theorem mapNext_next (f : State → State) (s : State) : mapNext f (.next s) = .next (f s) := rfl
@[simp] theorem mapNext_fault (f : State → State) (r : Fault) : mapNext f (.fault r) = .fault r := rfl
@[simp] theorem mapNext_refused (f : State → State) (r : Refusal) : mapNext f (.refused r) = .refused r := rfl
@[simp] theorem outcomeIssuesCleared_next (s : State) : outcomeIssuesCleared (.next s) = .next s.issuesCleared := rfl
@[simp] theorem erasedOutcome_next (s : State) : erasedOutcome (.next s) = .next s.erased := rfl

/-! ## A host that passes or waits -/

@[simp] theorem HostQuietFor_zero (h : List HostInput) : HostQuietFor 0 h = true := by cases h <;> rfl
@[simp] theorem hostAfter_zero (h : List HostInput) : hostAfter 0 h = h := by cases h <;> rfl

/-- A host that is quiet for longer is quiet for less. -/
theorem HostQuietFor_pred {n : Nat} {h : List HostInput} (q : HostQuietFor (n + 1) h = true) : HostQuietFor n h = true := by
  induction n generalizing h with
  | zero => exact HostQuietFor_zero h
  | succ n ih =>
    cases h with
    | nil => rfl
    | cons x rest =>
      cases x with
      | pass => exact ih q
      | present c => rfl
      | reset => exact q
      | store a v => exact q
      | release a => exact q

/-- A host that does nothing more, or waits with a command, is quiet for as long as the block is busy, and goes on so. -/
theorem HostQuietFor_of_quiet {h : List HostInput} (q : HostQuiet h = true) (n : Nat) :
    HostQuietFor n h = true ∧ hostAfter n h = h := by
  cases n with
  | zero => exact ⟨HostQuietFor_zero h, hostAfter_zero h⟩
  | succ n =>
    cases h with
    | nil => exact ⟨rfl, rfl⟩
    | cons x rest =>
      cases x with
      | present c => exact ⟨rfl, rfl⟩
      | pass => cases q
      | reset => cases q
      | store a v => cases q
      | release a => cases q

/-- The last step of a quiet host: it is quiet for one more step of the block, and then `hostAfter` of that is left. -/
theorem hostAfter_succ {n : Nat} {h : List HostInput} (q : HostQuietFor (n + 1) h = true) :
    HostQuietFor 1 (hostAfter n h) = true ∧ hostAfter (n + 1) h = hostAfter 1 (hostAfter n h) := by
  induction n generalizing h with
  | zero => exact ⟨by rw [hostAfter_zero]; exact q, by rw [hostAfter_zero]⟩
  | succ n ih =>
    cases h with
    | nil => exact ⟨rfl, rfl⟩
    | cons x rest =>
      cases x with
      | pass => exact ih q
      | present c => exact ⟨rfl, rfl⟩
      | reset => cases q
      | store a v => cases q
      | release a => cases q

/-- With a quiet host a running block takes its own step. -/
theorem step_of_hostQuietFor {s : State} (hp : s.phase = .run) (q : HostQuietFor 1 s.host = true) :
    step s = blockStep (s.withHost (hostAfter 1 s.host)) := by
  cases hh : s.host with
  | nil =>
    have e : s.withHost [] = s := by cases s; cases hh; rfl
    simp only [step, advance, hh, hostAfter, e]
  | cons x rest =>
    rw [hh] at q
    cases x with
    | pass => simp only [step, advance, hh, hostAfter, hostAfter_zero]
    | present c =>
      have e : s.withHost (.present c :: rest) = s := by cases s; cases hh; rfl
      simp only [step, advance, hh, hp, hostAfter, e]
    | reset => cases q
    | store a v => cases q
    | release a => cases q

end Sys2Proof.Machine
end

