-- ==== Sys2Proof/Laws/State.lean ====
section
/-!
SUPPORT. What each named update of State leaves in each field, so that no later proof unfolds a record update.
-/

namespace Sys2Proof.Machine

variable (s : State)

/-! ## emit -/

@[simp] theorem State.emit_params (es : List Event) : (s.emit es).params = s.params := rfl
@[simp] theorem State.emit_phase (es : List Event) : (s.emit es).phase = s.phase := rfl
@[simp] theorem State.emit_baseA (es : List Event) : (s.emit es).baseA = s.baseA := rfl
@[simp] theorem State.emit_baseB (es : List Event) : (s.emit es).baseB = s.baseB := rfl
@[simp] theorem State.emit_len (es : List Event) : (s.emit es).len = s.len := rfl
@[simp] theorem State.emit_k (es : List Event) : (s.emit es).k = s.k := rfl
@[simp] theorem State.emit_acc (es : List Event) : (s.emit es).acc = s.acc := rfl
@[simp] theorem State.emit_res (es : List Event) : (s.emit es).res = s.res := rfl
@[simp] theorem State.emit_rvalid (es : List Event) : (s.emit es).rvalid = s.rvalid := rfl
@[simp] theorem State.emit_mem (es : List Event) : (s.emit es).mem = s.mem := rfl
@[simp] theorem State.emit_history (es : List Event) : (s.emit es).history = s.history ++ es := rfl
@[simp] theorem State.emit_host (es : List Event) : (s.emit es).host = s.host := rfl
@[simp] theorem State.emit_draws (es : List Event) : (s.emit es).draws = s.draws := rfl

/-! ## publish -/

@[simp] theorem State.publish_params (r : Bit) : (s.publish r).params = s.params := rfl
@[simp] theorem State.publish_phase (r : Bit) : (s.publish r).phase = s.phase := rfl
@[simp] theorem State.publish_baseA (r : Bit) : (s.publish r).baseA = s.baseA := rfl
@[simp] theorem State.publish_baseB (r : Bit) : (s.publish r).baseB = s.baseB := rfl
@[simp] theorem State.publish_len (r : Bit) : (s.publish r).len = s.len := rfl
@[simp] theorem State.publish_k (r : Bit) : (s.publish r).k = s.k := rfl
@[simp] theorem State.publish_acc (r : Bit) : (s.publish r).acc = s.acc := rfl
@[simp] theorem State.publish_res (r : Bit) : (s.publish r).res = r := rfl
@[simp] theorem State.publish_rvalid (r : Bit) : (s.publish r).rvalid = 1 := rfl
@[simp] theorem State.publish_mem (r : Bit) : (s.publish r).mem = s.mem := rfl
@[simp] theorem State.publish_history (r : Bit) : (s.publish r).history = s.history ++ [.complete r] := rfl
@[simp] theorem State.publish_host (r : Bit) : (s.publish r).host = s.host := rfl
@[simp] theorem State.publish_draws (r : Bit) : (s.publish r).draws = s.draws := rfl

/-! ## toIdle -/

@[simp] theorem State.toIdle_params : (s.toIdle).params = s.params := rfl
@[simp] theorem State.toIdle_phase : (s.toIdle).phase = .idle := rfl
@[simp] theorem State.toIdle_baseA : (s.toIdle).baseA = s.baseA := rfl
@[simp] theorem State.toIdle_baseB : (s.toIdle).baseB = s.baseB := rfl
@[simp] theorem State.toIdle_len : (s.toIdle).len = s.len := rfl
@[simp] theorem State.toIdle_k : (s.toIdle).k = s.k := rfl
@[simp] theorem State.toIdle_acc : (s.toIdle).acc = s.acc := rfl
@[simp] theorem State.toIdle_res : (s.toIdle).res = s.res := rfl
@[simp] theorem State.toIdle_rvalid : (s.toIdle).rvalid = s.rvalid := rfl
@[simp] theorem State.toIdle_mem : (s.toIdle).mem = s.mem := rfl
@[simp] theorem State.toIdle_history : (s.toIdle).history = s.history := rfl
@[simp] theorem State.toIdle_host : (s.toIdle).host = s.host := rfl
@[simp] theorem State.toIdle_draws : (s.toIdle).draws = s.draws := rfl

/-! ## startBuffer -/

@[simp] theorem State.startBuffer_params (a b l : Word) : (s.startBuffer a b l).params = s.params := rfl
@[simp] theorem State.startBuffer_phase (a b l : Word) : (s.startBuffer a b l).phase = .run := rfl
@[simp] theorem State.startBuffer_baseA (a b l : Word) : (s.startBuffer a b l).baseA = a := rfl
@[simp] theorem State.startBuffer_baseB (a b l : Word) : (s.startBuffer a b l).baseB = b := rfl
@[simp] theorem State.startBuffer_len (a b l : Word) : (s.startBuffer a b l).len = l := rfl
@[simp] theorem State.startBuffer_k (a b l : Word) : (s.startBuffer a b l).k = 0 := rfl
@[simp] theorem State.startBuffer_acc (a b l : Word) : (s.startBuffer a b l).acc = 1 := rfl
@[simp] theorem State.startBuffer_res (a b l : Word) : (s.startBuffer a b l).res = 0 := rfl
@[simp] theorem State.startBuffer_rvalid (a b l : Word) : (s.startBuffer a b l).rvalid = 0 := rfl
@[simp] theorem State.startBuffer_mem (a b l : Word) : (s.startBuffer a b l).mem = s.mem := rfl
@[simp] theorem State.startBuffer_history (a b l : Word) : (s.startBuffer a b l).history = s.history := rfl
@[simp] theorem State.startBuffer_host (a b l : Word) : (s.startBuffer a b l).host = s.host := rfl
@[simp] theorem State.startBuffer_draws (a b l : Word) : (s.startBuffer a b l).draws = s.draws := rfl

/-! ## accumulate -/

@[simp] theorem State.accumulate_params (r : Bit) : (s.accumulate r).params = s.params := rfl
@[simp] theorem State.accumulate_phase (r : Bit) : (s.accumulate r).phase = s.phase := rfl
@[simp] theorem State.accumulate_baseA (r : Bit) : (s.accumulate r).baseA = s.baseA := rfl
@[simp] theorem State.accumulate_baseB (r : Bit) : (s.accumulate r).baseB = s.baseB := rfl
@[simp] theorem State.accumulate_len (r : Bit) : (s.accumulate r).len = s.len := rfl
@[simp] theorem State.accumulate_k (r : Bit) : (s.accumulate r).k = lowBits s.params.lenW (s.k + 1) := rfl
@[simp] theorem State.accumulate_acc (r : Bit) : (s.accumulate r).acc = s.acc &&& r := rfl
@[simp] theorem State.accumulate_res (r : Bit) : (s.accumulate r).res = s.res := rfl
@[simp] theorem State.accumulate_rvalid (r : Bit) : (s.accumulate r).rvalid = s.rvalid := rfl
@[simp] theorem State.accumulate_mem (r : Bit) : (s.accumulate r).mem = s.mem := rfl
@[simp] theorem State.accumulate_history (r : Bit) : (s.accumulate r).history = s.history := rfl
@[simp] theorem State.accumulate_host (r : Bit) : (s.accumulate r).host = s.host := rfl
@[simp] theorem State.accumulate_draws (r : Bit) : (s.accumulate r).draws = s.draws := rfl

/-! ## resetBlock -/

@[simp] theorem State.resetBlock_params : (s.resetBlock).params = s.params := rfl
@[simp] theorem State.resetBlock_phase : (s.resetBlock).phase = .idle := rfl
@[simp] theorem State.resetBlock_baseA : (s.resetBlock).baseA = lowBits s.params.addrW (Config.freeWord s.draws) := rfl
@[simp] theorem State.resetBlock_baseB : (s.resetBlock).baseB = lowBits s.params.addrW (Config.freeWord (s.draws + 1)) := rfl
@[simp] theorem State.resetBlock_len : (s.resetBlock).len = lowBits s.params.lenW (Config.freeWord (s.draws + 2)) := rfl
@[simp] theorem State.resetBlock_k : (s.resetBlock).k = lowBits s.params.lenW (Config.freeWord (s.draws + 3)) := rfl
@[simp] theorem State.resetBlock_acc : (s.resetBlock).acc = (Config.freeWord (s.draws + 4)).setWidth 1 := rfl
@[simp] theorem State.resetBlock_res : (s.resetBlock).res = 0 := rfl
@[simp] theorem State.resetBlock_rvalid : (s.resetBlock).rvalid = 0 := rfl
@[simp] theorem State.resetBlock_mem : (s.resetBlock).mem = s.mem := rfl
@[simp] theorem State.resetBlock_history : (s.resetBlock).history = s.history ++ [.reset] := rfl
@[simp] theorem State.resetBlock_host : (s.resetBlock).host = s.host := rfl
@[simp] theorem State.resetBlock_draws : (s.resetBlock).draws = s.draws + 5 := rfl

/-! ## withHost -/

@[simp] theorem State.withHost_params (h : List HostInput) : (s.withHost h).params = s.params := rfl
@[simp] theorem State.withHost_phase (h : List HostInput) : (s.withHost h).phase = s.phase := rfl
@[simp] theorem State.withHost_baseA (h : List HostInput) : (s.withHost h).baseA = s.baseA := rfl
@[simp] theorem State.withHost_baseB (h : List HostInput) : (s.withHost h).baseB = s.baseB := rfl
@[simp] theorem State.withHost_len (h : List HostInput) : (s.withHost h).len = s.len := rfl
@[simp] theorem State.withHost_k (h : List HostInput) : (s.withHost h).k = s.k := rfl
@[simp] theorem State.withHost_acc (h : List HostInput) : (s.withHost h).acc = s.acc := rfl
@[simp] theorem State.withHost_res (h : List HostInput) : (s.withHost h).res = s.res := rfl
@[simp] theorem State.withHost_rvalid (h : List HostInput) : (s.withHost h).rvalid = s.rvalid := rfl
@[simp] theorem State.withHost_mem (h : List HostInput) : (s.withHost h).mem = s.mem := rfl
@[simp] theorem State.withHost_history (h : List HostInput) : (s.withHost h).history = s.history := rfl
@[simp] theorem State.withHost_host (h : List HostInput) : (s.withHost h).host = h := rfl
@[simp] theorem State.withHost_draws (h : List HostInput) : (s.withHost h).draws = s.draws := rfl

/-! ## callerStore -/

@[simp] theorem State.callerStore_params (x : Nat) (v : Byte) : (s.callerStore x v).params = s.params := rfl
@[simp] theorem State.callerStore_phase (x : Nat) (v : Byte) : (s.callerStore x v).phase = s.phase := rfl
@[simp] theorem State.callerStore_baseA (x : Nat) (v : Byte) : (s.callerStore x v).baseA = s.baseA := rfl
@[simp] theorem State.callerStore_baseB (x : Nat) (v : Byte) : (s.callerStore x v).baseB = s.baseB := rfl
@[simp] theorem State.callerStore_len (x : Nat) (v : Byte) : (s.callerStore x v).len = s.len := rfl
@[simp] theorem State.callerStore_k (x : Nat) (v : Byte) : (s.callerStore x v).k = s.k := rfl
@[simp] theorem State.callerStore_acc (x : Nat) (v : Byte) : (s.callerStore x v).acc = s.acc := rfl
@[simp] theorem State.callerStore_res (x : Nat) (v : Byte) : (s.callerStore x v).res = s.res := rfl
@[simp] theorem State.callerStore_rvalid (x : Nat) (v : Byte) : (s.callerStore x v).rvalid = s.rvalid := rfl
@[simp] theorem State.callerStore_mem (x : Nat) (v : Byte) : (s.callerStore x v).mem = s.mem.writeWithin (Params.addrSpace s.params) x v := rfl
@[simp] theorem State.callerStore_history (x : Nat) (v : Byte) : (s.callerStore x v).history = s.history := rfl
@[simp] theorem State.callerStore_host (x : Nat) (v : Byte) : (s.callerStore x v).host = s.host := rfl
@[simp] theorem State.callerStore_draws (x : Nat) (v : Byte) : (s.callerStore x v).draws = s.draws := rfl

/-! ## callerRelease -/

@[simp] theorem State.callerRelease_params (x : Nat) : (s.callerRelease x).params = s.params := rfl
@[simp] theorem State.callerRelease_phase (x : Nat) : (s.callerRelease x).phase = s.phase := rfl
@[simp] theorem State.callerRelease_baseA (x : Nat) : (s.callerRelease x).baseA = s.baseA := rfl
@[simp] theorem State.callerRelease_baseB (x : Nat) : (s.callerRelease x).baseB = s.baseB := rfl
@[simp] theorem State.callerRelease_len (x : Nat) : (s.callerRelease x).len = s.len := rfl
@[simp] theorem State.callerRelease_k (x : Nat) : (s.callerRelease x).k = s.k := rfl
@[simp] theorem State.callerRelease_acc (x : Nat) : (s.callerRelease x).acc = s.acc := rfl
@[simp] theorem State.callerRelease_res (x : Nat) : (s.callerRelease x).res = s.res := rfl
@[simp] theorem State.callerRelease_rvalid (x : Nat) : (s.callerRelease x).rvalid = s.rvalid := rfl
@[simp] theorem State.callerRelease_mem (x : Nat) : (s.callerRelease x).mem = s.mem.erase x := rfl
@[simp] theorem State.callerRelease_history (x : Nat) : (s.callerRelease x).history = s.history := rfl
@[simp] theorem State.callerRelease_host (x : Nat) : (s.callerRelease x).host = s.host := rfl
@[simp] theorem State.callerRelease_draws (x : Nat) : (s.callerRelease x).draws = s.draws := rfl

end Sys2Proof.Machine
end

