-- ==== Sys2Proof/Laws/Step.lean ====
section
/-!
SUPPORT. What each step can do, said once: a prover cites these and unfolds no step.
-/

namespace Sys2Proof.Machine

/-! ## MemRead -/

/-- A read with a value: it lies in the address space and every byte of it is the memory's. -/
theorem memRead_some {p : Params} {m : Memory} {addr : Nat} {size : ReadSize} {v : Word}
    (h : memRead p m addr size = some v) :
    addr + size.bytes ≤ Params.addrSpace p ∧ m.readLE size.bytes addr = some v := by
  unfold memRead at h
  split at h
  · exact ⟨‹_›, h⟩
  · cases h

/-! ## Chunk -/

/-- The address a `Chunk` step reads in the buffer with this base. -/
abbrev State.chunkAddr (s : State) (base : Word) : Nat := base.toNat + chunkOffset s.len.toNat s.k.toNat

/-- The size a `Chunk` step reads. -/
abbrev State.chunkWidth (s : State) : ReadSize := chunkSize s.len.toNat s.k.toNat

/-- The state after a `Chunk` step that read `va` and `vb`. -/
abbrev State.chunkNext (s : State) (va vb : Word) : State :=
  ((s.emit [.read (s.chunkAddr s.baseA) s.chunkWidth va]).emit
    [.read (s.chunkAddr s.baseB) s.chunkWidth vb]).accumulate (chunkBit s.chunkWidth va vb)

/-- Everything a `Chunk` step can do: fault on A's read, fault on B's read after A's, or work the chunk. -/
theorem chunkStep_cases (s : State) :
    (memRead s.params s.mem (s.chunkAddr s.baseA) s.chunkWidth = none ∧
      chunkStep s = .fault (s.unreadable (s.chunkAddr s.baseA) s.chunkWidth .a)) ∨
    (∃ va, memRead s.params s.mem (s.chunkAddr s.baseA) s.chunkWidth = some va ∧
      memRead s.params s.mem (s.chunkAddr s.baseB) s.chunkWidth = none ∧
      chunkStep s = .fault ((s.emit [.read (s.chunkAddr s.baseA) s.chunkWidth va]).unreadable
        (s.chunkAddr s.baseB) s.chunkWidth .b)) ∨
    (∃ va vb, memRead s.params s.mem (s.chunkAddr s.baseA) s.chunkWidth = some va ∧
      memRead s.params s.mem (s.chunkAddr s.baseB) s.chunkWidth = some vb ∧
      chunkStep s = .next (s.chunkNext va vb)) := by
  cases ha : memRead s.params s.mem (s.chunkAddr s.baseA) s.chunkWidth with
  | none => exact .inl ⟨rfl, by simp only [chunkStep, ha]⟩
  | some va =>
    cases hb : memRead s.params s.mem (s.chunkAddr s.baseB) s.chunkWidth with
    | none => exact .inr (.inl ⟨va, rfl, rfl, by simp only [chunkStep, ha, hb]⟩)
    | some vb => exact .inr (.inr ⟨va, vb, rfl, rfl, by simp only [chunkStep, ha, hb]⟩)

/-! ## The block's own step -/

/-- Everything the block's own step can do. -/
theorem blockStep_cases (s : State) :
    (s.phase = .idle ∧ blockStep s = .next s) ∨
    (s.phase = .run ∧ s.k.toNat < numChunks s.len.toNat ∧ blockStep s = chunkStep s) ∨
    (s.phase = .run ∧ s.k.toNat = numChunks s.len.toNat ∧ blockStep s = .next (s.publish s.acc).toIdle) ∨
    (s.phase = .run ∧ numChunks s.len.toNat < s.k.toNat ∧ blockStep s = .next s) := by
  unfold blockStep completeStep
  split
  · exact .inl ⟨‹_›, rfl⟩
  · split
    · exact .inr (.inl ⟨‹_›, ‹_›, rfl⟩)
    · split
      · exact .inr (.inr (.inl ⟨‹_›, ‹_›, rfl⟩))
      · exact .inr (.inr (.inr ⟨‹_›, by omega, rfl⟩))

/-- The block's own step neither reads nor writes the host's list. -/
theorem blockStep_withHost (s : State) (h : List HostInput) :
    blockStep (s.withHost h) =
      match blockStep s with
      | .next t    => .next (t.withHost h)
      | .fault f   => .fault f
      | .refused r => .refused r := by
  rcases blockStep_cases s with ⟨hp, hb⟩ | ⟨hp, hk, hb⟩ | ⟨hp, hk, hb⟩ | ⟨hp, hk, hb⟩
  · rw [hb]
    simp only [blockStep, State.withHost_phase, hp]
  · have e : blockStep (s.withHost h) = chunkStep (s.withHost h) := by
      simp only [blockStep, State.withHost_phase, State.withHost_k, State.withHost_len, hp, hk, if_true]
    rcases chunkStep_cases s with ⟨ha, hc⟩ | ⟨va, ha, hb', hc⟩ | ⟨va, vb, ha, hb', hc⟩ <;>
      rw [hb, hc, e] <;> unfold chunkStep State.withHost
    · simp only [ha]; rfl
    · simp only [ha, hb']; rfl
    · simp only [ha, hb']; rfl
  · rw [hb]
    simp only [blockStep, State.withHost_phase, State.withHost_k, State.withHost_len, hp, hk, Nat.lt_irrefl, if_true, if_false]
    rfl
  · rw [hb]
    have hlt : ¬ s.k.toNat < numChunks s.len.toNat := by omega
    have hne : ¬ s.k.toNat = numChunks s.len.toNat := by omega
    simp only [blockStep, State.withHost_phase, State.withHost_k, State.withHost_len, hp, hlt, hne, if_false]

/-! ## Issue -/

/-- Everything the `Issue` step of an instruction can do. -/
theorem exec_cases (i : Instr) (s : State) :
    (∃ opa opb len, i = .reserved opa opb len ∧ exec i s = .refused (.reservedOp 3 opa opb len)) ∨
    (s.phase = .run ∧ exec i s = .next s) ∨
    (s.phase = .idle ∧ ∃ opa opb len, i = .cmp8 opa opb len ∧
      exec i s = .next ((s.emit [.issue 0 opa opb len]).publish (eq8 (byteOperand opa) (byteOperand opb)))) ∨
    (s.phase = .idle ∧ ∃ opa opb len, i = .cmp64 opa opb len ∧
      exec i s = .next ((s.emit [.issue 1 opa opb len]).publish (eq64 (wordOperand opa) (wordOperand opb)))) ∨
    (s.phase = .idle ∧ ∃ opa opb len, i = .cmpbuf opa opb len ∧
      exec i s = .next ((s.emit [.issue 2 opa opb len]).startBuffer
        (baseOperand s.params opa) (baseOperand s.params opb) (lengthOperand s.params len))) := by
  cases i with
  | reserved opa opb len => exact .inl ⟨opa, opb, len, rfl, rfl⟩
  | cmp8 opa opb len =>
    cases h : s.phase with
    | run => exact .inr (.inl ⟨rfl, by simp only [exec, execCmp8, h]⟩)
    | idle => exact .inr (.inr (.inl ⟨rfl, opa, opb, len, rfl, by simp only [exec, execCmp8, h]⟩))
  | cmp64 opa opb len =>
    cases h : s.phase with
    | run => exact .inr (.inl ⟨rfl, by simp only [exec, execCmp64, h]⟩)
    | idle => exact .inr (.inr (.inr (.inl ⟨rfl, opa, opb, len, rfl, by simp only [exec, execCmp64, h]⟩)))
  | cmpbuf opa opb len =>
    cases h : s.phase with
    | run => exact .inr (.inl ⟨rfl, by simp only [exec, execCmpbuf, h]⟩)
    | idle => exact .inr (.inr (.inr (.inr ⟨rfl, opa, opb, len, rfl, by simp only [exec, execCmpbuf, h]⟩)))

/-! ## The machine's step -/

/-- Everything one step of the machine can do, by what the host does next. -/
theorem step_cases (s : State) :
    (∃ rest, s.host = .reset :: rest ∧ step s = .next (s.withHost rest).resetBlock) ∨
    (∃ addr v rest, s.host = .store addr v :: rest ∧ step s = .next ((s.withHost rest).callerStore addr v)) ∨
    (∃ addr rest, s.host = .release addr :: rest ∧ step s = .next ((s.withHost rest).callerRelease addr)) ∨
    (∃ rest, s.host = .pass :: rest ∧ step s = blockStep (s.withHost rest)) ∨
    (s.phase = .idle ∧ ∃ c rest, s.host = .present c :: rest ∧
      step s = exec (decode (Command.onPorts s.params c)) (s.withHost rest)) ∨
    (s.phase = .run ∧ ∃ c rest, s.host = .present c :: rest ∧ step s = blockStep s) ∨
    (s.host = [] ∧ step s = blockStep s) := by
  unfold step
  cases hh : s.host with
  | nil => simp [advance, hh]
  | cons x rest =>
    cases x with
    | reset => simp [advance, hh]
    | store a v => simp [advance, hh]
    | release a => simp [advance, hh]
    | pass => simp [advance, hh]
    | present c => cases hp : s.phase <;> simp [advance, hh, hp]

end Sys2Proof.Machine
end

