-- ==== Sys2Proof/Laws/Width.lean ====
section
/-!
SUPPORT. What `lowBits` does, as a number, and that it is idempotent.
-/

namespace Sys2Proof.Machine

theorem lowBits_toNat (w : Nat) (v : Word) : (lowBits w v).toNat = v.toNat % 2 ^ w := by
  have h := Nat.mod_le v.toNat (2 ^ w)
  have hv := v.isLt
  simp only [lowBits, BitVec.toNat_setWidth]
  exact Nat.mod_eq_of_lt (by omega)

theorem lowBits_lt (w : Nat) (v : Word) : (lowBits w v).toNat < 2 ^ w := by
  rw [lowBits_toNat]
  exact Nat.mod_lt _ (Nat.two_pow_pos w)

/-- A value that fits is kept. -/
theorem lowBits_eq_self {w : Nat} {v : Word} (h : v.toNat < 2 ^ w) : lowBits w v = v := by
  apply BitVec.eq_of_toNat_eq
  rw [lowBits_toNat, Nat.mod_eq_of_lt h]

@[simp] theorem lowBits_lowBits (w : Nat) (v : Word) : lowBits w (lowBits w v) = lowBits w v :=
  lowBits_eq_self (lowBits_lt w v)

/-- An increment that stays within the width is exact. -/
theorem lowBits_succ_toNat {w : Nat} {v : Word} (h : v.toNat + 1 < 2 ^ w) (h64 : v.toNat + 1 < 2 ^ 64) :
    (lowBits w (v + 1)).toNat = v.toNat + 1 := by
  have hs : (v + 1).toNat = v.toNat + 1 := by
    rw [BitVec.toNat_add]
    exact Nat.mod_eq_of_lt h64
  rw [lowBits_toNat, hs, Nat.mod_eq_of_lt h]

end Sys2Proof.Machine
end

