-- ==== Sys2Proof/Tests/Slice0.lean ====
section
/-!
SUPPORT. Tests: the checks of WellFormed refuse, the spec's encodings decode, one step of each command gives the spec's
vectors (95_test_vectors.md), and every obligation's hypotheses are met by a concrete state.
-/

namespace Sys2Proof.Tests

open Sys2Proof.Machine

/-! ## Small states -/

/-- Narrow widths, so that the edges of a port and of the address space are near. -/
def narrow : Params := { addrW := 8, lenW := 8 }

/-- Bytes from an address on. -/
def placed : Nat → List Byte → Memory
  | _, []      => []
  | a, b :: bs => (a, b) :: placed (a + 1) bs

/-- The state after reset with these widths, this memory and this host. -/
def idle (p : Params) (m : Memory) (h : List HostInput) : State := { State.reset with params := p, mem := m, host := h }

/-- `CMPBUF a, b, len` under way at chunk `k`. -/
def running (p : Params) (m : Memory) (h : List HostInput) (a b len k : Word) (acc : Bit) : State :=
  { idle p m h with phase := .run, baseA := a, baseB := b, len := len, k := k, acc := acc }

/-- Buffer A of vector B4. -/
def bytesB4A : List Byte := [0x10, 0x11, 0x12, 0x13, 0x14, 0x15, 0x16, 0x17, 0x18, 0x19, 0x1A]

/-- Buffer B of vector B4: byte 9 differs. -/
def bytesB4B : List Byte := [0x10, 0x11, 0x12, 0x13, 0x14, 0x15, 0x16, 0x17, 0x18, 0x99, 0x1A]

/-- The memory of vector B4. -/
def memB4 : Memory := placed 0x1000 bytesB4A ++ placed 0x2000 bytesB4B

/-- The memory of program P5: buffer B has 9 readable bytes. -/
def memP5 : Memory := placed 0x1000 bytesB4A ++ placed 0x2000 (bytesB4B.take 9)

/-- Nine bytes. -/
def nine : List Byte := [1, 2, 3, 4, 5, 6, 7, 8, 9]

/-- Two equal buffers of nine bytes, the second ending at the top of a space of 256. -/
def memTop : Memory := placed 0x10 nine ++ placed 0xF7 nine

/-- The same with the last byte of the second changed. -/
def memTopOff : Memory := placed 0x10 nine ++ placed 0xF7 [1, 2, 3, 4, 5, 6, 7, 8, 0x89]

/-- `CMPBUF 0x10, 0xF7, 9`. -/
def cmdTop : Command := { op := 2, opa := 0x10, opb := 0xF7, len := 9 }

/-- That command under way at chunk `k`. -/
def runTop (m : Memory) (h : List HostInput) (k : Word) (acc : Bit) : State := running narrow m h 0x10 0xF7 9 k acc

/-- The outcome is a next state of which `f` holds. -/
def nextThat (f : State → Bool) : Host.Outcome State Fault Refusal → Bool
  | .next s    => f s
  | .fault _   => false
  | .refused _ => false

/-- The outcome is this fault. -/
def faultIs (f : Fault) : Host.Outcome State Fault Refusal → Bool
  | .next _    => false
  | .fault g   => decide (g = f)
  | .refused _ => false

/-- The outcome is this refusal. -/
def refusalIs (r : Refusal) : Host.Outcome State Fault Refusal → Bool
  | .next _    => false
  | .fault _   => false
  | .refused q => decide (q = r)

/-! ## WellFormed: the one check, on each constructor (30_encoding.md R51) -/

theorem test_wellFormed_cmp8 :
    (Instr.cmp8 0 0 255).wellFormed narrow = true ∧ (Instr.cmp8 0 0 256).wellFormed narrow = false := by decide

theorem test_wellFormed_cmp64 :
    (Instr.cmp64 0 0 255).wellFormed narrow = true ∧ (Instr.cmp64 0 0 256).wellFormed narrow = false := by decide

theorem test_wellFormed_cmpbuf :
    (Instr.cmpbuf 0 0 255).wellFormed narrow = true ∧ (Instr.cmpbuf 0 0 256).wellFormed narrow = false := by decide

theorem test_wellFormed_reserved :
    (Instr.reserved 0 0 255).wellFormed narrow = true ∧ (Instr.reserved 0 0 256).wellFormed narrow = false := by decide

/-! ## Decode: `op` written out from 30_encoding.md R53, in bits 1:0 of the record's first byte -/

theorem test_decode_cmp8 : decodeTableWord 8 0b00000000 = some (.cmp8 0 0 0) := by decide

theorem test_decode_cmp64 : decodeTableWord 8 0b00000001 = some (.cmp64 0 0 0) := by decide

theorem test_decode_cmpbuf : decodeTableWord 8 0b00000010 = some (.cmpbuf 0 0 0) := by decide

theorem test_decode_reserved : decodeTableWord 8 0b00000011 = some (.reserved 0 0 0) := by decide

/-- Program P1, command 2: `(2, 0x1000, 0x2008, 8)`, every port in its place. -/
theorem test_decode_record :
    (decodeBytes [2, 0x00, 0x10, 0, 0, 0, 0, 0, 0, 0x08, 0x20, 0, 0, 0, 0, 0, 0, 8, 0, 0, 0, 0, 0, 0, 0]).toOption =
      some (.cmpbuf 0x1000 0x2008 8, []) := by decide

/-- A record one byte short is refused by name. -/
theorem test_decode_truncated : decodeBytes (List.replicate 24 0) = .error (.truncated 24) := by rfl

/-- The command placed by `withFetchWord` is the one the next step hands over. -/
theorem test_withFetchWord :
    nextThat (fun t => t.res == 1 && t.rvalid == 1) (step (State.reset.withFetchWord 8 0)) = true ∧
    nextThat (fun t => t.res == 1 && t.rvalid == 1) (step (State.reset.withFetchWord 8 1)) = true ∧
    nextThat (fun t => t.phase == .run) (step (State.reset.withFetchWord 8 2)) = true ∧
    refusalIs (.reservedOp 3 0 0 0) (step (State.reset.withFetchWord 8 3)) = true := by decide

/-! ## One step, against 95_test_vectors.md -/

/-- Vector A6: the nearest miss. -/
theorem test_cmp8_bit0_differs :
    nextThat (fun t => t.res == 0 && t.rvalid == 1 && t.phase == .idle &&
      t.history == [.reset, .issue 0 0x5A 0x5B 0, .complete 0]) (exec (.cmp8 0x5A 0x5B 0) State.reset) = true := by decide

/-- Vector A5 with ignored bits set (section 2). -/
theorem test_cmp8_ignored_bits :
    nextThat (fun t => t.res == 1 && t.history ==
      [.reset, .issue 0 0xFFFFFFFFFFFFFF5A 0x5A 0x1234, .complete 1])
      (exec (.cmp8 0xFFFFFFFFFFFFFF5A 0x5A 0x1234) State.reset) = true := by decide

/-- Vector W11. -/
theorem test_cmp64_equal :
    nextThat (fun t => t.res == 1 && t.rvalid == 1 && t.history ==
      [.reset, .issue 1 0xDEADBEEFCAFEF00D 0xDEADBEEFCAFEF00D 0, .complete 1])
      (exec (.cmp64 0xDEADBEEFCAFEF00D 0xDEADBEEFCAFEF00D 0) State.reset) = true := by decide

/-- Vector W6: bit 32 differs. -/
theorem test_cmp64_bit32_differs :
    nextThat (fun t => t.res == 0 && t.rvalid == 1)
      (exec (.cmp64 0x0123456789ABCDEF 0x0123456689ABCDEF 0) State.reset) = true := by decide

/-- Program P2, the `Issue` step of command 3, from a state with a result published. -/
theorem test_cmpbuf_issue :
    nextThat (fun t => t.phase == .run && t.baseA == 0x1000 && t.baseB == 0x2000 && t.len == 11 && t.k == 0 && t.acc == 1 &&
      t.rvalid == 0 && t.res == 0 && t.history == [.reset, .issue 2 0x1000 0x2000 11])
      (exec (.cmpbuf 0x1000 0x2000 11) { idle Params.standard memB4 [] with res := 1, rvalid := 1 }) = true := by decide

/-- Vector B4, chunk 0: the two little-endian words. -/
theorem test_cmpbuf_word_chunk :
    nextThat (fun t => t.phase == .run && t.k == 1 && t.acc == 1 && t.rvalid == 0 && t.history ==
      [.reset, .read 0x1000 .eight 0x1716151413121110, .read 0x2000 .eight 0x1716151413121110])
      (step (running Params.standard memB4 [] 0x1000 0x2000 11 0 1)) = true := by decide

/-- Vector B4, chunk 2: the tail byte that differs. -/
theorem test_tail_chunk :
    nextThat (fun t => t.phase == .run && t.k == 3 && t.acc == 0 && t.history ==
      [.reset, .read 0x1009 .one 0x19, .read 0x2009 .one 0x99])
      (step (running Params.standard memB4 [] 0x1000 0x2000 11 2 1)) = true := by decide

/-- Vector B4, the `Complete` step. -/
theorem test_complete :
    nextThat (fun t => t.phase == .idle && t.k == 4 && t.acc == 0 && t.rvalid == 1 && t.res == 0 &&
      t.history == [.reset, .complete 0]) (step (running Params.standard memB4 [] 0x1000 0x2000 11 4 0)) = true := by decide

/-- Program P4. -/
theorem test_reserved_refused :
    refusalIs (.reservedOp 3 1 1 0) (exec (.reserved 1 1 0) State.reset) = true := by decide

/-- Program P5: the read of A stands in the history, the read of B has no value. -/
theorem test_fault :
    faultIs (.unreadableMemory 0x2009 1 .b 2 [.reset, .read 0x1009 .one 0x19])
      (step (running Params.standard memP5 [] 0x1000 0x2000 11 2 1)) = true := by decide

/-- Program P6: reset during `RUN`. -/
theorem test_reset :
    nextThat (fun t => t.phase == .idle && t.rvalid == 0 && t.res == 0 && t.history == [.reset, .reset])
      (step (running Params.standard memB4 [.reset] 0x1000 0x2000 11 2 1)) = true := by decide

/-! ## Witnesses: states that meet the hypotheses of the obligations, at the edges of their clauses -/

theorem test_witness_EncodeOfDecodedBytesIsTheRecord :
    (decodeBytes ([0xFE, 0x10, 0, 0, 0, 0, 0, 0, 0, 0xF7, 0, 0, 0, 0, 0, 0, 0, 9, 0, 0, 0, 0, 0, 0, 0] ++ [0xAA])).toOption =
      some (.cmpbuf 0x10 0xF7 9, [0xAA]) := by decide

theorem test_witness_OnlyShortRecordsAreRejected :
    decodeBytes (List.replicate 24 7) = .error (.truncated 24) ∧
    (decodeBytes (List.replicate 25 0)).toOption = some (.cmp8 0 0 0, []) := ⟨rfl, by decide⟩

/-- Each of the four values of `op` is some command's. -/
theorem test_witness_DecoderReadsTheOperationFieldAlone :
    decode { cmdTop with op := 0 } = .cmp8 0x10 0xF7 9 ∧ decode { cmdTop with op := 1 } = .cmp64 0x10 0xF7 9 ∧
    decode cmdTop = .cmpbuf 0x10 0xF7 9 ∧ decode { cmdTop with op := 3 } = .reserved 0x10 0xF7 9 := by decide

theorem test_witness_StepIssuesThePresentedCommand :
    (idle narrow memTop [.present cmdTop, .pass]).phase = .idle ∧
    (idle narrow memTop [.present cmdTop, .pass]).host = .present cmdTop :: [.pass] ∧
    decode { cmdTop with len := 255 } = .cmpbuf 0x10 0xF7 255 ∧ (Instr.cmpbuf 0x10 0xF7 255).wellFormed narrow = true ∧
    decode (Command.onPorts narrow { cmdTop with len := 256 }) = .cmpbuf 0x10 0xF7 0 := by decide

theorem test_witness_CommandWhileBusyHasNoEffect :
    (runTop memTop [.present cmdTop] 0 1).phase = .run ∧
    (runTop memTop [.present cmdTop] 0 1).host = .present cmdTop :: [] ∧
    nextThat (fun t => t.k == 1 && t.host == [.present cmdTop]) (step (runTop memTop [.present cmdTop] 0 1)) = true := by
  decide

theorem test_witness_IdleBlockWaits :
    (idle narrow [] []).phase = .idle ∧ (idle narrow [] []).host = [] ∧
    (idle narrow [] [.pass, .reset]).phase = .idle ∧ (idle narrow [] [.pass, .reset]).host = .pass :: [.reset] := by decide

theorem test_witness_ResetStepClearsThePortsInEveryState :
    (idle narrow [] [.reset]).host = .reset :: [] ∧ (runTop memTop [.reset, .pass] 1 1).host = .reset :: [.pass] ∧
    cmdTop.op ≠ 3 := by decide

theorem test_witness_ResetDuringRunAbandonsTheCommand :
    (runTop memTop [.reset] 1 1).phase = .run ∧ (runTop memTop [.reset] 1 1).host = .reset :: [] ∧
    (runTop memTop [.reset] 1 1).k.toNat < numChunks (runTop memTop [.reset] 1 1).len.toNat ∧
    nextThat (fun t => t.phase == .idle) (step (runTop memTop [.reset] 1 1)) = true := by decide

/-- One idle state for each clause: the host resets, presents `CMPBUF`, or does something else. -/
theorem test_witness_ResetValuesAndHiddenRegistersUnread :
    (idle narrow memTop [.reset]).phase = .idle ∧ HostResets (idle narrow memTop [.reset]).host = true ∧
    (idle narrow memTop [.present cmdTop]).host = .present cmdTop :: [] ∧ cmdTop.op = 2 ∧
    HostResets (idle narrow memTop [.release 0x10]).host = false ∧
    ∀ c rest, (idle narrow memTop [.release 0x10]).host = .present c :: rest → c.op ≠ 2 :=
  ⟨rfl, rfl, rfl, rfl, rfl, fun _ _ h => by cases h⟩

theorem test_witness_CarryOutExactlyOfAllOnes :
    (0xFF#8).toNat = 2 ^ 8 - 1 ∧ (0xFE#8).toNat ≠ 2 ^ 8 - 1 ∧
    (0xFFFFFFFFFFFFFFFF#64).toNat = 2 ^ 64 - 1 ∧ (0xFFFFFFFFFFFFFFFE#64).toNat ≠ 2 ^ 64 - 1 := by decide

/-- The comparators: an equal and an unequal pair each. -/
theorem test_witness_ByteComparatorDecidesEquality :
    (0x5A#8) = 0x5A#8 ∧ (0x5A#8) ≠ 0x5B#8 ∧ eq8 0x5A#8 0x5A#8 = 1 ∧ eq8 0x5A#8 0x5B#8 = 0 := by decide

theorem test_witness_WordComparatorDecidesEquality :
    (0x15A#64) = 0x15A#64 ∧ (0x15A#64) ≠ 0x5A#64 ∧ eq64 0x15A#64 0x15A#64 = 1 ∧ eq64 0x15A#64 0x5A#64 = 0 := by decide

theorem test_witness_WordComparatorExtendsTheByteComparator : (idle narrow [] []).phase = .idle := by decide

theorem test_witness_CompareByteCompletes : (idle narrow memTop [.pass]).phase = .idle := by decide

theorem test_witness_CompareWordCompletes : (idle Params.standard [] []).phase = .idle := by decide

theorem test_witness_CompareBufferIssues : (idle narrow [] []).phase = .idle := by decide

/-- Ports that agree in the bits taken and differ in the bits ignored. -/
theorem test_witness_IgnoredBitsChangeNothing :
    (idle narrow memTop []).phase = .idle ∧
    (0x15A : Word).setWidth 8 = (0x5A : Word).setWidth 8 ∧ (0x15A : Word) ≠ 0x5A ∧
    (0x110 : Word).setWidth narrow.addrW = (0x10 : Word).setWidth narrow.addrW ∧
    (0x109 : Word).setWidth narrow.lenW = (0x09 : Word).setWidth narrow.lenW := by decide

theorem test_witness_IssueStepFrame :
    nextThat (fun _ => true) (exec (.cmp8 1 2 3) (idle narrow memTop [])) = true ∧
    nextThat (fun _ => true) (exec (.cmp64 1 2 3) (idle narrow memTop [])) = true ∧
    nextThat (fun _ => true) (exec (.cmpbuf 1 2 3) (idle narrow memTop [])) = true ∧
    nextThat (fun _ => true) (exec (.cmpbuf 1 2 3) (runTop memTop [] 0 1)) = true := by decide

theorem test_witness_ReservedCodeIsRefused :
    refusalIs (.reservedOp 3 1 2 3) (exec (.reserved 1 2 3) (runTop memTop [] 0 1)) = true ∧
    (idle narrow [] [.present { cmdTop with op := 3 }]).phase = .idle ∧
    (idle narrow [] [.present { cmdTop with op := 3 }]).host = .present { cmdTop with op := 3 } :: [] ∧
    ({ cmdTop with op := 3 } : Command).op = 3 := by decide

/-- Chunk 0 of nine bytes; the read of B ends one below the top. -/
theorem test_witness_WordChunkComparesEightBytes :
    (runTop memTop [] 0 1).Inv ∧ (runTop memTop [] 0 1).phase = .run ∧ HostQuiet (runTop memTop [] 0 1).host = true ∧
    (runTop memTop [] 0 1).k.toNat < (runTop memTop [] 0 1).len.toNat / 8 ∧
    (runTop memTop [] 0 1).ReadableAt 0x10 8 ∧ (runTop memTop [] 0 1).ReadableAt 0xF7 8 := by decide

/-- Chunk 1 of nine bytes; the read of B takes the highest address there is, and differs from A's. -/
theorem test_witness_TailChunkComparesOneByte :
    (runTop memTopOff [] 1 1).Inv ∧ (runTop memTopOff [] 1 1).phase = .run ∧ HostQuiet (runTop memTopOff [] 1 1).host = true ∧
    (runTop memTopOff [] 1 1).len.toNat / 8 ≤ (runTop memTopOff [] 1 1).k.toNat ∧
    (runTop memTopOff [] 1 1).k.toNat < (runTop memTopOff [] 1 1).len.toNat / 8 + (runTop memTopOff [] 1 1).len.toNat % 8 ∧
    (runTop memTopOff [] 1 1).ReadableAt 0x18 1 ∧ (runTop memTopOff [] 1 1).ReadableAt 0xFF 1 := by decide

theorem test_witness_AccumulationIsEager :
    (runTop memTop [.present cmdTop] 1 0).phase = .run ∧ HostQuiet (runTop memTop [.present cmdTop] 1 0).host = true ∧
    (runTop memTop [.present cmdTop] 1 0).k.toNat < numChunks (runTop memTop [.present cmdTop] 1 0).len.toNat ∧
    (runTop memTop [.present cmdTop] 1 0).acc = 0 ∧
    nextThat (fun t => t.acc == 0) (step (runTop memTop [.present cmdTop] 1 0)) = true := by decide

/-- After the last chunk, and at once for an empty buffer. -/
theorem test_witness_CompletePublishesTheAccumulator :
    (runTop memTop [] 2 1).phase = .run ∧ HostQuiet (runTop memTop [] 2 1).host = true ∧
    (runTop memTop [] 2 1).k.toNat = numChunks (runTop memTop [] 2 1).len.toNat ∧
    (running narrow [] [] 0 0 0 0 1).k.toNat = numChunks (running narrow [] [] 0 0 0 0 1).len.toNat := by decide

/-- A unreadable; A readable and B not; B running past the top. -/
theorem test_witness_UnreadableBufferFaults :
    ((runTop [] [] 0 1).phase = .run ∧ HostQuiet (runTop [] [] 0 1).host = true ∧
      (runTop [] [] 0 1).k.toNat < numChunks (runTop [] [] 0 1).len.toNat ∧ ¬ (runTop [] [] 0 1).ReadableAt 0x10 8) ∧
    ((runTop (placed 0x10 nine) [] 1 1).ReadableAt 0x18 1 ∧ ¬ (runTop (placed 0x10 nine) [] 1 1).ReadableAt 0xFF 1) ∧
    ((running narrow memTop [] 0x10 0xF8 9 1 1).ReadableAt 0x18 1 ∧
      ¬ (running narrow memTop [] 0x10 0xF8 9 1 1).ReadableAt 0x100 1) := by decide

theorem test_witness_EveryStopIsListed :
    faultIs (.unreadableMemory 0x10 8 .a 0 [.reset]) (step (runTop [] [] 0 1)) = true ∧
    refusalIs (.reservedOp 3 0x10 0xF7 9) (step (idle narrow [] [.present { cmdTop with op := 3 }])) = true := by decide

/-- The caller's preconditions, on two equal buffers and on two that differ. -/
theorem test_witness_BufferCompareComputesEquality :
    ((idle narrow memTop [.present cmdTop]).phase = .idle ∧
      (idle narrow memTop [.present cmdTop]).host = .present cmdTop :: [] ∧ cmdTop.op = 2 ∧ HostQuietFor 3 [] = true ∧
      HostQuietFor 3 [.pass, .pass, .present cmdTop] = true ∧ HostQuietFor 3 [.pass, .pass, .pass, .reset] = true ∧
      HostQuietFor 3 [.pass, .pass, .reset] = false ∧ hostAfter 3 [.pass, .pass, .pass, .reset] = [.reset] ∧
      (idle narrow memTop [.present cmdTop]).BufferReadable 0x10 9 ∧
      (idle narrow memTop [.present cmdTop]).BufferReadable 0xF7 9 ∧
      (idle narrow memTop [.present cmdTop]).BuffersAgree 0x10 0xF7 9) ∧
    ((idle narrow memTopOff [.present cmdTop]).BufferReadable 0x10 9 ∧
      (idle narrow memTopOff [.present cmdTop]).BufferReadable 0xF7 9 ∧
      ¬ (idle narrow memTopOff [.present cmdTop]).BuffersAgree 0x10 0xF7 9) ∧
    (baseOperand narrow cmdTop.opa).toNat = 0x10 ∧ (baseOperand narrow cmdTop.opb).toNat = 0xF7 ∧
    (lengthOperand narrow cmdTop.len).toNat = 9 := by decide

/-- The same state, with another command waiting behind the first; both ends of the range of `m`. -/
theorem test_witness_BufferCompareTakesNoFewerSteps :
    (idle narrow memTop [.present cmdTop, .present cmdTop]).phase = .idle ∧
    HostQuietFor 0 [.present cmdTop] = true ∧ HostQuietFor 2 [.present cmdTop] = true ∧
    (idle narrow memTop [.present cmdTop, .present cmdTop]).host = .present cmdTop :: [.present cmdTop] ∧
    (idle narrow memTop [.present cmdTop, .present cmdTop]).BufferReadable 0x10 9 ∧
    (idle narrow memTop [.present cmdTop, .present cmdTop]).BufferReadable 0xF7 9 ∧
    0 ≤ 9 / 8 + 9 % 8 ∧ 2 ≤ 9 / 8 + 9 % 8 := by decide

/-- No byte readable, and a length whose bits are all above the port. -/
theorem test_witness_ZeroLengthBuffersAreEqual :
    (idle narrow [] [.present { cmdTop with len := 256 }]).phase = .idle ∧ HostQuietFor 1 [] = true ∧
    (idle narrow [] [.present { cmdTop with len := 256 }]).host = .present { cmdTop with len := 256 } :: [] ∧
    lengthOperand narrow 0 = 0 ∧ lengthOperand narrow 256 = 0 := by decide

/-- Length 8: the two memories differ at offset 8 of buffer B. -/
theorem test_witness_OnlyTheFirstLengthBytesMatter :
    memTop ≠ memTopOff ∧ (idle narrow memTop [.present { cmdTop with len := 8 }]).phase = .idle ∧
    (idle narrow memTop [.present { cmdTop with len := 8 }]).host = [.present { cmdTop with len := 8 }] ∧
    (baseOperand narrow 0x10).toNat = 0x10 ∧ (baseOperand narrow 0xF7).toNat = 0xF7 ∧ (lengthOperand narrow 8).toNat = 8 ∧
    ∀ i < 8, memTopOff.read (0x10 + i) = memTop.read (0x10 + i) ∧ memTopOff.read (0xF7 + i) = memTop.read (0xF7 + i) := by
  decide

/-- Bases that differ on the ports in ignored bits alone. -/
theorem test_witness_AliasedBuffersAreEqual :
    (idle narrow memTop [.present { cmdTop with opb := 0x110 }]).phase = .idle ∧ HostQuietFor 3 [] = true ∧
    numChunks (lengthOperand narrow 9).toNat + 1 = 3 ∧
    (idle narrow memTop [.present { cmdTop with opb := 0x110 }]).host = .present { cmdTop with opb := 0x110 } :: [] ∧
    baseOperand narrow 0x10 = baseOperand narrow 0x110 ∧
    (idle narrow memTop [.present { cmdTop with opb := 0x110 }]).BufferReadable (baseOperand narrow 0x10).toNat 9 := by decide

theorem test_witness_AccessPatternIsPublic :
    (idle narrow memTopOff [.present cmdTop]).phase = .idle ∧ HostQuiet [] = true ∧
    (idle narrow memTopOff [.present cmdTop]).host = .present cmdTop :: [] ∧
    (idle narrow memTopOff [.present cmdTop]).BufferReadable 0x10 9 ∧
    (idle narrow memTopOff [.present cmdTop]).BufferReadable 0xF7 9 ∧
    accessPattern 0x10 0xF7 9 = [(0x10, 1), (0xF7, 1), (0x18, 0), (0xFF, 0)] := by decide

theorem test_witness_BlockNeverWritesMemory :
    HostTouchesMemory (runTop memTop [] 0 1).host = false ∧
    nextThat (fun t => t.mem == memTop) (step (runTop memTop [] 0 1)) = true := by decide

/-- Readable up to the top; one byte past the top; a hole. -/
theorem test_witness_ReadAssemblesLittleEndian :
    (idle narrow memTop []).ReadableAt 0xF8 8 ∧ ¬ (idle narrow memTop []).ReadableAt 0xF9 8 ∧
    (idle narrow memTop []).ReadableAt 0xFF 1 ∧ ¬ (idle narrow memTop []).ReadableAt 0x100 1 ∧
    ¬ (idle narrow memTop []).ReadableAt 0x12 8 ∧ memRead narrow memTop 0x11 .eight = some 0x0908070605040302 := by decide

/-- A store at the top, one above it, and a release. -/
theorem test_witness_CallerStoresAndReleasesBytes :
    (idle narrow [] [.store 255 7]).host = .store 255 7 :: [] ∧ 255 < 2 ^ narrow.addrW ∧ ¬ 256 < 2 ^ narrow.addrW ∧
    nextThat (fun t => t.mem == [(255, 7)]) (step (idle narrow [] [.store 255 7])) = true ∧
    nextThat (fun t => t.mem == []) (step (idle narrow [] [.store 256 7])) = true ∧
    (idle narrow memTop [.release 0x10]).host = .release 0x10 :: [] ∧
    nextThat (fun t => t.mem.read 0x10 == none && t.mem.read 0x11 == some 2)
      (step (idle narrow memTop [.release 0x10])) = true := by decide

/-- The clauses of the partition at 0, 7, 8, 9 and 255 bytes (95_test_vectors.md, step and read counts). -/
theorem test_witness_ChunksTileTheBuffer :
    (numWords 0 = 0 ∧ numTail 0 = 0 ∧ numChunks 0 = 0) ∧ numChunks 7 = 7 ∧ numChunks 8 = 1 ∧ numChunks 9 = 2 ∧
    numChunks 255 = 38 ∧ (0 < numWords 9 ∧ chunkOffset 9 0 = 0 ∧ chunkSize 9 0 = .eight) ∧
    (numWords 9 ≤ 1 ∧ 1 < numChunks 9 ∧ chunkOffset 9 1 = 8 ∧ chunkSize 9 1 = .one) := by decide

/-- A one-bit counter and an address space of two bytes. -/
theorem test_witness_NoCounterOrAddressWraps :
    (running { addrW := 1, lenW := 1 } [(0, 5), (1, 5)] [] 0 1 1 0 1).len.toNat < 2 ^ 1 ∧
    (running { addrW := 1, lenW := 1 } [(0, 5), (1, 5)] [] 0 1 1 0 1).k.toNat <
      numChunks (running { addrW := 1, lenW := 1 } [(0, 5), (1, 5)] [] 0 1 1 0 1).len.toNat ∧
    (running { addrW := 1, lenW := 1 } [(0, 5), (1, 5)] [] 0 1 1 0 1).BufferReadable 1 1 := by decide

/-- The invariant holds before and after a chunk. -/
theorem test_witness_EveryStepKeepsTheInvariant :
    (runTop memTop [] 1 1).Inv ∧ nextThat (fun t => decide t.Inv) (step (runTop memTop [] 1 1)) = true := by decide

/-- The command of `cmdTop` after its first chunk, with its history. -/
def tracedTop : State :=
  { runTop memTop [] 1 1 with
    history := [.reset, .issue 2 0x10 0xF7 9, .read 0x10 .eight 0x0807060504030201, .read 0xF7 .eight 0x0807060504030201] }

theorem test_witness_EveryStepKeepsTheTrace :
    tracedTop.Inv ∧ tracedTop.Traced ∧ nextThat (fun t => t.k == 2) (step tracedTop) = true :=
  ⟨by decide,
   fun _ => ⟨0x10, 0xF7, 9, [.reset], [(0x0807060504030201, 0x0807060504030201)], by decide⟩,
   by decide⟩

/-- Latches and `K` as they were, `K` one more, and latched by `Issue`. -/
theorem test_witness_LatchesAndIndexMoveOnlySo :
    ((runTop memTop [] 2 1).Inv ∧ HostResets (runTop memTop [] 2 1).host = false ∧
      nextThat (fun t => t.k == 2) (step (runTop memTop [] 2 1)) = true) ∧
    ((runTop memTop [] 0 1).Inv ∧ nextThat (fun t => t.k == 1) (step (runTop memTop [] 0 1)) = true) ∧
    ((idle narrow memTop [.present cmdTop]).Inv ∧ HostResets (idle narrow memTop [.present cmdTop]).host = false ∧
      nextThat (fun t => t.baseB == 0xF7) (step (idle narrow memTop [.present cmdTop])) = true) :=
  ⟨by decide, by decide, by decide⟩

/-- `IDLE` to `RUN`; `RUN` to `IDLE` by `Complete` and by reset. -/
theorem test_witness_PhaseChangesOnlySo :
    nextThat (fun t => t.phase == .run) (step (idle narrow memTop [.present cmdTop])) = true ∧
    nextThat (fun t => t.phase == .idle) (step (runTop memTop [] 2 1)) = true ∧
    nextThat (fun t => t.phase == .idle) (step (runTop memTop [.reset] 1 1)) = true := by decide

/-- A result held while idle and during `RUN`; published by `Complete`; written by `Issue` of each command. -/
theorem test_witness_ResultIsHeldUntilTheNextCommand :
    HostResets ([.pass] : List HostInput) = false ∧
    nextThat (fun t => t.res == 1) (step { idle narrow [] [.pass] with res := 1, rvalid := 1 }) = true ∧
    nextThat (fun t => t.res == 1 && t.rvalid == 1) (step (runTop memTop [] 2 1)) = true ∧
    nextThat (fun t => t.res == 0 && t.rvalid == 1) (step (idle narrow [] [.present { cmdTop with op := 0 }])) = true ∧
    nextThat (fun t => t.res == 0 && t.rvalid == 1) (step (idle narrow [] [.present { cmdTop with op := 1 }])) = true ∧
    nextThat (fun t => t.res == 0 && t.rvalid == 0)
      (step { idle narrow [] [.present cmdTop] with res := 1, rvalid := 1 }) = true := by decide

/-- Two events in a step, and none. -/
theorem test_witness_HistoryOnlyGrows :
    nextThat (fun t => t.history.length == 3) (step (runTop memTop [] 0 1)) = true ∧
    nextThat (fun t => t.history.length == 1) (step (idle narrow [] [])) = true := by decide

theorem test_witness_RunningCommandShowsNothing :
    (runTop memTop [] 1 1).Inv ∧ (runTop memTop [] 1 1).phase = .run := by decide

/-- The narrowest container and a wider one. -/
theorem test_witness_WidenedResultIsZeroOrOne :
    0 < 1 ∧ ({ State.reset with res := 1 } : State).resultWidened 1 = 1#1 ∧
    ({ State.reset with res := 1 } : State).resultWidened 8 = 0x01#8 := by decide

/-- Two states that differ in buffer bytes, `ACC` and a comparand waiting on the ports. -/
theorem test_witness_StepLeaksNoSecret :
    (runTop memTop [.present { cmdTop with op := 0 }] 1 1).erased =
      (runTop memTopOff [.present { cmdTop with op := 0, opa := 0x77 }] 1 0).erased ∧
    memTop ≠ memTopOff := by decide

/-- Two idle states about to run the same command over different bytes. -/
theorem test_witness_RunsLeakNoSecret :
    (idle narrow memTop [.present cmdTop]).erased = (idle narrow memTopOff [.present cmdTop]).erased ∧
    memTop ≠ memTopOff := by decide

/-- A host that passes over each chunk of a command and over its `Complete`. -/
theorem test_witness_PassLetsTheBlockStep :
    (runTop memTop [.pass, .reset] 1 1).host = .pass :: [.reset] ∧ (runTop memTop [.pass, .reset] 1 1).phase = .run ∧
    (runTop memTop [.pass, .reset] 1 1).k.toNat < numChunks (runTop memTop [.pass, .reset] 1 1).len.toNat ∧
    (runTop memTop [.pass] 2 1).k.toNat = numChunks (runTop memTop [.pass] 2 1).len.toNat ∧
    nextThat (fun t => t.k == 2 && t.host == [.reset]) (step (runTop memTop [.pass, .reset] 1 1)) = true ∧
    nextThat (fun t => t.phase == .idle && t.res == 1) (step (runTop memTop [.pass] 2 1)) = true := by decide

/-- Two chunks in, over buffers whose last byte differs and a memory that differs outside both. -/
theorem test_witness_UnchangedBuffersDecideTheResult :
    (runTop memTopOff [] 2 0).Inv ∧ (runTop memTopOff [] 2 0).phase = .run ∧
    (runTop memTopOff [] 2 0).ComparedSoFar (memTopOff.write 0x30 5) ∧
    (∀ i < 9, memTopOff.read (0x10 + i) = (memTopOff.write 0x30 5).read (0x10 + i) ∧
      memTopOff.read (0xF7 + i) = (memTopOff.write 0x30 5).read (0xF7 + i)) ∧
    nextThat (fun t => t.phase == .idle && t.res == 0) (step (runTop memTopOff [] 2 0)) = true ∧
    nextThat (fun _ => true) (exec (.cmpbuf 0x10 0xF7 9) (idle narrow memTop [])) = true :=
  ⟨by decide, by decide, fun _ => by decide, by decide, by decide, by decide⟩

/-- For each operation, two commands that differ in ignored bits. -/
theorem test_witness_RunsIgnoreIgnoredBits :
    (idle narrow memTop []).phase = .idle ∧
    Command.SameButIgnored narrow { op := 0, opa := 0x15A, opb := 0x5A, len := 1 } { op := 0, opa := 0x5A, opb := 0x25A, len := 2 } ∧
    Command.SameButIgnored narrow { op := 1, opa := 0x15A, opb := 0x5A, len := 1 } { op := 1, opa := 0x15A, opb := 0x5A, len := 2 } ∧
    Command.SameButIgnored narrow cmdTop { op := 2, opa := 0x110, opb := 0x3F7, len := 0x109 } ∧
    Command.SameButIgnored narrow { op := 3, opa := 1, opb := 2, len := 3 } { op := 3, opa := 4, opb := 5, len := 6 } :=
  ⟨by decide, by decide, by decide, by decide, by decide⟩

end Sys2Proof.Tests
end

/-! PROOFS. What a step appends to the history (00_scope.md R12). -/

namespace Sys2Proof.Machine

/-- `t` has the widths of `s`, and its history is that of `s` with at most two events appended. -/
abbrev State.AppendsTo (s t : State) : Prop :=
  t.params = s.params ∧ ∃ es, t.history = s.history ++ es ∧ es.length ≤ 2

theorem State.appendsTo_of_history_eq {s t : State} (hp : t.params = s.params) (hh : t.history = s.history) :
    s.AppendsTo t :=
  ⟨hp, [], by rw [hh, List.append_nil], by decide⟩

theorem State.appendsTo_refl (s : State) : s.AppendsTo s := State.appendsTo_of_history_eq rfl rfl

/-- The host's list is neither a width nor an event. -/
theorem State.withHost_appendsTo {s t : State} {h : List HostInput} : (s.withHost h).AppendsTo t ↔ s.AppendsTo t := by
  simp only [State.AppendsTo, State.withHost_params, State.withHost_history]

/-- A `Chunk` step appends its two reads (42_buffer_compare.md R85). -/
theorem State.appendsTo_chunkNext (s : State) (va vb : Word) : s.AppendsTo (s.chunkNext va vb) :=
  ⟨rfl, [.read (s.chunkAddr s.baseA) s.chunkWidth va, .read (s.chunkAddr s.baseB) s.chunkWidth vb],
    by simp [State.chunkNext], by simp⟩

/-- A `Complete` step appends its result (42_buffer_compare.md R89). -/
theorem State.appendsTo_publish_toIdle (s : State) (r : Bit) : s.AppendsTo (s.publish r).toIdle :=
  ⟨rfl, [.complete r], rfl, by simp⟩

/-- The one step of a scalar command appends its `Issue` and its result (40_scalar_compare8.md R68, 41_scalar_compare64.md
R76). -/
theorem State.appendsTo_emit_publish (s : State) (e : Event) (r : Bit) : s.AppendsTo ((s.emit [e]).publish r) :=
  ⟨rfl, [e, .complete r], by simp, by simp⟩

/-- The `Issue` step of `CMPBUF` appends its `Issue` alone (42_buffer_compare.md R83). -/
theorem State.appendsTo_emit_startBuffer (s : State) (e : Event) (a b len : Word) :
    s.AppendsTo ((s.emit [e]).startBuffer a b len) :=
  ⟨rfl, [e], rfl, by simp⟩

/-- A `Reset` step appends its one event (70_reset_and_hazards.md R136). -/
theorem State.appendsTo_resetBlock (s : State) : s.AppendsTo s.resetBlock := ⟨rfl, [.reset], rfl, by simp⟩

theorem chunkStep_appendsTo {s t : State} (h : chunkStep s = .next t) : s.AppendsTo t := by
  rcases chunkStep_cases s with ⟨-, hc⟩ | ⟨va, -, -, hc⟩ | ⟨va, vb, -, -, hc⟩ <;> rw [hc] at h <;> cases h
  exact s.appendsTo_chunkNext va vb

theorem blockStep_appendsTo {s t : State} (h : blockStep s = .next t) : s.AppendsTo t := by
  rcases blockStep_cases s with ⟨-, hb⟩ | ⟨-, -, hb⟩ | ⟨-, -, hb⟩ | ⟨-, -, hb⟩ <;> rw [hb] at h
  · cases h
    exact s.appendsTo_refl
  · exact chunkStep_appendsTo h
  · cases h
    exact s.appendsTo_publish_toIdle s.acc
  · cases h
    exact s.appendsTo_refl

theorem exec_appendsTo {i : Instr} {s t : State} (h : exec i s = .next t) : s.AppendsTo t := by
  rcases exec_cases i s with ⟨opa, opb, len, -, he⟩ | ⟨-, he⟩ | ⟨-, opa, opb, len, -, he⟩ | ⟨-, opa, opb, len, -, he⟩ |
    ⟨-, opa, opb, len, -, he⟩ <;> rw [he] at h <;> cases h
  · exact s.appendsTo_refl
  · exact s.appendsTo_emit_publish _ _
  · exact s.appendsTo_emit_publish _ _
  · exact s.appendsTo_emit_startBuffer _ _ _ _

/-- Every step, whatever the host does: its own store and release append nothing, and every other step is one of the above. -/
theorem step_appendsTo {s t : State} (h : step s = .next t) : s.AppendsTo t := by
  rcases step_cases s with ⟨rest, -, hs⟩ | ⟨addr, v, rest, -, hs⟩ | ⟨addr, rest, -, hs⟩ | ⟨rest, -, hs⟩ |
    ⟨-, c, rest, -, hs⟩ | ⟨-, c, rest, -, hs⟩ | ⟨-, hs⟩ <;> rw [hs] at h
  · cases h
    exact State.withHost_appendsTo.mp (State.appendsTo_resetBlock _)
  · cases h
    exact State.appendsTo_of_history_eq rfl rfl
  · cases h
    exact State.appendsTo_of_history_eq rfl rfl
  · exact State.withHost_appendsTo.mp (blockStep_appendsTo h)
  · exact State.withHost_appendsTo.mp (exec_appendsTo h)
  · exact blockStep_appendsTo h
  · exact blockStep_appendsTo h

/-- Settles O48, by what each kind of step appends. -/
theorem historyOnlyGrows : Obligations.HistoryOnlyGrows := by
  intro s t h
  exact step_appendsTo h

end Sys2Proof.Machine

/-! PROOFS. What a step of the machine leads to, one constructor for each kind of step, and the equations of the step function. -/

namespace Sys2Proof.Machine

/-! ## The decoder -/

/-- Nothing of a command is lost in decoding it (30_encoding.md R53, R59). -/
theorem encode_decode (c : Command) : encode (decode c) = c := by
  obtain ⟨op, opa, opb, len⟩ := c
  have hop : op = 0 ∨ op = 1 ∨ op = 2 ∨ op = 3 := by bv_omega
  rcases hop with rfl | rfl | rfl | rfl <;> rfl

theorem onPorts_eq_encode {p : Params} {c : Command} {i : Instr} (h : decode (Command.onPorts p c) = i) :
    Command.onPorts p c = encode i := by
  rw [← h, encode_decode]

/-- The operation is the one the instruction is encoded with. -/
theorem op_eq_encode_op {p : Params} {c : Command} {i : Instr} (h : decode (Command.onPorts p c) = i) :
    c.op = (encode i).op := by
  rw [← onPorts_eq_encode h]
  rfl

/-- The length of `CMPBUF` does not depend on the bits its port drops (30_encoding.md R56; log 20). -/
@[simp] theorem lengthOperand_lowBits (p : Params) (len : Word) :
    lengthOperand p (lowBits p.lenW len) = lengthOperand p len :=
  lowBits_lowBits p.lenW len

/-! ## The step function, entry by entry of the host's list -/

section
variable {s : State} {rest : List HostInput}

theorem step_of_nil (hh : s.host = []) : step s = blockStep s := by
  simp only [step, advance, hh]

theorem step_of_reset (hh : s.host = .reset :: rest) : step s = .next (s.withHost rest).resetBlock := by
  simp only [step, advance, hh]

theorem step_of_pass (hh : s.host = .pass :: rest) : step s = blockStep (s.withHost rest) := by
  simp only [step, advance, hh]

theorem step_of_store {x : Nat} {v : Byte} (hh : s.host = .store x v :: rest) :
    step s = .next ((s.withHost rest).callerStore x v) := by
  simp only [step, advance, hh]

theorem step_of_release {x : Nat} (hh : s.host = .release x :: rest) :
    step s = .next ((s.withHost rest).callerRelease x) := by
  simp only [step, advance, hh]

theorem step_of_present {c : Command} (hp : s.phase = .idle) (hh : s.host = .present c :: rest) :
    step s = exec (decode (Command.onPorts s.params c)) (s.withHost rest) := by
  simp only [step, advance, hh, hp]

theorem blockStep_of_idle (hp : s.phase = .idle) : blockStep s = .next s := by
  simp only [blockStep, hp]

theorem blockStep_of_lt (hp : s.phase = .run) (hk : s.k.toNat < numChunks s.len.toNat) : blockStep s = chunkStep s := by
  simp only [blockStep, hp, hk, if_true]

theorem blockStep_of_eq (hp : s.phase = .run) (hk : s.k.toNat = numChunks s.len.toNat) : blockStep s = completeStep s := by
  simp only [blockStep, hp, hk, Nat.lt_irrefl, if_true, if_false]

end

/-- `blockStep_withHost`, by the map over outcomes. -/
theorem blockStep_withHost_eq_mapNext (s : State) (h : List HostInput) :
    blockStep (s.withHost h) = mapNext (fun t => t.withHost h) (blockStep s) := by
  rw [blockStep_withHost]
  cases blockStep s <;> rfl

/-! ## What a step leads to -/

/-- The host leaves the step to the block, and then `h` is left of its list: it passes, does nothing more, or waits with a
command (log 6, 8). -/
abbrev State.LeavesStepToBlock (s : State) (h : List HostInput) : Prop :=
  s.host = .pass :: h ∨ (s.host = h ∧ HostQuiet h = true)

/-- The states a step of the machine can lead to, each kind of step with its guard. -/
inductive State.StepsTo (s : State) : State → Prop
  | reset (rest : List HostInput) (hh : s.host = .reset :: rest) :
      s.StepsTo (s.withHost rest).resetBlock
  | store (x : Nat) (v : Byte) (rest : List HostInput) (hh : s.host = .store x v :: rest) :
      s.StepsTo ((s.withHost rest).callerStore x v)
  | release (x : Nat) (rest : List HostInput) (hh : s.host = .release x :: rest) :
      s.StepsTo ((s.withHost rest).callerRelease x)
  | wait (h : List HostInput) (hh : s.LeavesStepToBlock h)
      (hw : s.phase = .idle ∨ (s.phase = .run ∧ numChunks s.len.toNat < s.k.toNat)) :
      s.StepsTo (s.withHost h)
  | chunk (h : List HostInput) (va vb : Word) (hh : s.LeavesStepToBlock h)
      (hp : s.phase = .run) (hk : s.k.toNat < numChunks s.len.toNat)
      (ha : memRead s.params s.mem (s.chunkAddr s.baseA) s.chunkWidth = some va)
      (hb : memRead s.params s.mem (s.chunkAddr s.baseB) s.chunkWidth = some vb) :
      s.StepsTo ((s.withHost h).chunkNext va vb)
  | complete (h : List HostInput) (hh : s.LeavesStepToBlock h)
      (hp : s.phase = .run) (hk : s.k.toNat = numChunks s.len.toNat) :
      s.StepsTo ((s.withHost h).publish s.acc).toIdle
  | cmp8 (c : Command) (rest : List HostInput) (hp : s.phase = .idle) (hh : s.host = .present c :: rest) (hop : c.op = 0) :
      s.StepsTo (((s.withHost rest).emit [.issue 0 c.opa c.opb (lowBits s.params.lenW c.len)]).publish
        (eq8 (byteOperand c.opa) (byteOperand c.opb)))
  | cmp64 (c : Command) (rest : List HostInput) (hp : s.phase = .idle) (hh : s.host = .present c :: rest) (hop : c.op = 1) :
      s.StepsTo (((s.withHost rest).emit [.issue 1 c.opa c.opb (lowBits s.params.lenW c.len)]).publish
        (eq64 (wordOperand c.opa) (wordOperand c.opb)))
  | cmpbuf (c : Command) (rest : List HostInput) (hp : s.phase = .idle) (hh : s.host = .present c :: rest) (hop : c.op = 2) :
      s.StepsTo (((s.withHost rest).emit [.issue 2 c.opa c.opb (lowBits s.params.lenW c.len)]).startBuffer
        (baseOperand s.params c.opa) (baseOperand s.params c.opb) (lengthOperand s.params c.len))

theorem State.stepsTo_of_blockStep {s t : State} {h : List HostInput} (hh : s.LeavesStepToBlock h)
    (e : blockStep (s.withHost h) = .next t) : s.StepsTo t := by
  rcases blockStep_cases (s.withHost h) with ⟨hp, hb⟩ | ⟨hp, hk, hb⟩ | ⟨hp, hk, hb⟩ | ⟨hp, hk, hb⟩ <;> rw [hb] at e
  · cases e
    exact .wait h hh (.inl hp)
  · rcases chunkStep_cases (s.withHost h) with ⟨-, hc⟩ | ⟨va, -, -, hc⟩ | ⟨va, vb, hva, hvb, hc⟩ <;> rw [hc] at e <;> cases e
    exact .chunk h va vb hh hp hk hva hvb
  · cases e
    exact .complete h hh hp hk
  · cases e
    exact .wait h hh (.inr ⟨hp, hk⟩)

theorem State.stepsTo_of_exec {s t : State} {c : Command} {rest : List HostInput} (hp : s.phase = .idle)
    (hh : s.host = .present c :: rest)
    (e : exec (decode (Command.onPorts s.params c)) (s.withHost rest) = .next t) : s.StepsTo t := by
  rcases exec_cases (decode (Command.onPorts s.params c)) (s.withHost rest) with ⟨opa, opb, len, -, he⟩ | ⟨hr, -⟩ |
    ⟨-, opa, opb, len, hi, he⟩ | ⟨-, opa, opb, len, hi, he⟩ | ⟨-, opa, opb, len, hi, he⟩
  · rw [he] at e
    cases e
  · rw [State.withHost_phase, hp] at hr
    cases hr
  · obtain ⟨hop, rfl, rfl, rfl⟩ := Command.mk.inj (onPorts_eq_encode hi)
    rw [he] at e
    cases e
    exact .cmp8 c rest hp hh hop
  · obtain ⟨hop, rfl, rfl, rfl⟩ := Command.mk.inj (onPorts_eq_encode hi)
    rw [he] at e
    cases e
    exact .cmp64 c rest hp hh hop
  · obtain ⟨hop, rfl, rfl, rfl⟩ := Command.mk.inj (onPorts_eq_encode hi)
    rw [he, State.withHost_params, lengthOperand_lowBits] at e
    cases e
    exact .cmpbuf c rest hp hh hop

/-- Every next state is one of these. -/
theorem State.stepsTo_of_step {s t : State} (e : step s = .next t) : s.StepsTo t := by
  rcases step_cases s with ⟨rest, hh, hs⟩ | ⟨x, v, rest, hh, hs⟩ | ⟨x, rest, hh, hs⟩ | ⟨rest, hh, hs⟩ |
    ⟨hp, c, rest, hh, hs⟩ | ⟨hp, c, rest, hh, hs⟩ | ⟨hh, hs⟩ <;> rw [hs] at e
  · cases e
    exact .reset rest hh
  · cases e
    exact .store x v rest hh
  · cases e
    exact .release x rest hh
  · exact State.stepsTo_of_blockStep (.inl hh) e
  · exact State.stepsTo_of_exec hp hh e
  · exact State.stepsTo_of_blockStep (h := s.host) (.inr ⟨rfl, by rw [hh]; rfl⟩) e
  · exact State.stepsTo_of_blockStep (h := s.host) (.inr ⟨rfl, by rw [hh]; rfl⟩) e

end Sys2Proof.Machine

/-! PROOFS. The invariants of 10_state.md R27: the reset state meets them and every step keeps them. -/

namespace Sys2Proof.Machine

/-! ## Registers, memory and ports (items 1, 3 and 4) -/

section
variable {s : State}

/-- A `Chunk` step that has work to do adds exactly 1 to `K` (43_common_laws.md R102). -/
theorem State.chunkNext_k_toNat (hlen : s.len.toNat < 2 ^ s.params.lenW) (hk : s.k.toNat < numChunks s.len.toNat)
    (va vb : Word) : (s.chunkNext va vb).k.toNat = s.k.toNat + 1 := by
  have hle := numChunks_le s.len.toNat
  have h64 := s.len.isLt
  exact lowBits_succ_toNat (w := s.params.lenW) (v := s.k) (by omega) (by omega)

theorem State.Inv.resetBlock (hs : s.Inv) : s.resetBlock.Inv := by
  obtain ⟨hlegal, -, -, hmem, -, -⟩ := hs
  exact ⟨hlegal, ⟨lowBits_lt _ _, lowBits_lt _ _⟩, ⟨lowBits_lt _ _, lowBits_lt _ _⟩, hmem, fun _ => rfl, nofun⟩

theorem State.Inv.callerStore (hs : s.Inv) (x : Nat) (v : Byte) : (s.callerStore x v).Inv := by
  obtain ⟨hlegal, hbases, hidx, ⟨hwf, hbelow⟩, hres, hrun⟩ := hs
  exact ⟨hlegal, hbases, hidx, ⟨Memory.wf_writeWithin hwf _ x v, Memory.writeWithin_below hbelow x v⟩, hres, hrun⟩

theorem State.Inv.callerRelease (hs : s.Inv) (x : Nat) : (s.callerRelease x).Inv := by
  obtain ⟨hlegal, hbases, hidx, ⟨hwf, hbelow⟩, hres, hrun⟩ := hs
  exact ⟨hlegal, hbases, hidx, ⟨Memory.wf_erase hwf x, fun c hc => hbelow c (Memory.mem_erase hc)⟩, hres, hrun⟩

/-- `K` stays at most `NCH`, which is at most `LEN` and so fits its register. -/
theorem State.Inv.chunkNext (hs : s.Inv) (hk : s.k.toNat < numChunks s.len.toNat) (va vb : Word) :
    (s.chunkNext va vb).Inv := by
  obtain ⟨hlegal, hbases, ⟨hlen, -⟩, hmem, hres, hrun⟩ := hs
  have hk' := State.chunkNext_k_toNat hlen hk va vb
  have hle := numChunks_le s.len.toNat
  refine ⟨hlegal, hbases, ⟨hlen, ?_⟩, hmem, hres, fun hp => ⟨?_, (hrun hp).2⟩⟩
  · show (s.chunkNext va vb).k.toNat < 2 ^ s.params.lenW
    omega
  · show (s.chunkNext va vb).k.toNat ≤ numChunks s.len.toNat
    omega

/-- A result is published with `RVALID = 1`, in `IDLE`. -/
theorem State.Inv.publish (hs : s.Inv) (hp : s.phase = .idle) (r : Bit) : (s.publish r).Inv := by
  obtain ⟨hlegal, hbases, hidx, hmem, -, -⟩ := hs
  refine ⟨hlegal, hbases, hidx, hmem, nofun, fun hr => ?_⟩
  rw [State.publish_phase, hp] at hr
  cases hr

theorem State.Inv.toIdle (hs : s.Inv) : s.toIdle.Inv := by
  obtain ⟨hlegal, hbases, hidx, hmem, hres, -⟩ := hs
  exact ⟨hlegal, hbases, hidx, hmem, hres, nofun⟩

theorem State.Inv.startBuffer (hs : s.Inv) (opa opb len : Word) :
    (s.startBuffer (baseOperand s.params opa) (baseOperand s.params opb) (lengthOperand s.params len)).Inv := by
  obtain ⟨hlegal, -, -, hmem, -, -⟩ := hs
  exact ⟨hlegal, ⟨lowBits_lt _ _, lowBits_lt _ _⟩, ⟨lowBits_lt _ _, Nat.two_pow_pos _⟩, hmem, fun _ => rfl,
    fun _ => ⟨Nat.zero_le _, rfl, rfl⟩⟩

end

/-- Settles O43, by one lemma for each update a step makes; the history and the host's list are in no clause of the
invariant. -/
theorem everyStepKeepsTheInvariant : Obligations.EveryStepKeepsTheInvariant := by
  intro s t hs e
  cases State.stepsTo_of_step e with
  | reset rest => exact State.Inv.resetBlock (s := s.withHost rest) hs
  | store x v rest => exact State.Inv.callerStore (s := s.withHost rest) hs x v
  | release x rest => exact State.Inv.callerRelease (s := s.withHost rest) hs x
  | wait => exact hs
  | chunk h va vb _ _ hk => exact State.Inv.chunkNext (s := s.withHost h) hs hk va vb
  | complete h => exact State.Inv.publish (s := (s.withHost h).toIdle) (State.Inv.toIdle hs) rfl s.acc
  | cmp8 c rest hp => exact State.Inv.publish (s := (s.withHost rest).emit _) hs hp _
  | cmp64 c rest hp => exact State.Inv.publish (s := (s.withHost rest).emit _) hs hp _
  | cmpbuf c rest => exact State.Inv.startBuffer (s := (s.withHost rest).emit _) hs c.opa c.opb c.len

/-! ## The recorded reads and `ACC` (item 2) -/

/-- One chunk more appends its two reads. -/
theorem chunkReads_append (a b len k : Nat) (ps : List (Word × Word)) (va vb : Word) :
    chunkReads a b len k (ps ++ [(va, vb)]) = chunkReads a b len k ps ++
      [.read (a + chunkOffset len (k + ps.length)) (chunkSize len (k + ps.length)) va,
       .read (b + chunkOffset len (k + ps.length)) (chunkSize len (k + ps.length)) vb] := by
  induction ps generalizing k with
  | nil => rfl
  | cons p ps ih =>
    simp only [List.cons_append, chunkReads, ih, List.length_cons, Nat.add_assoc, Nat.add_comm 1]

/-- One chunk more is ANDed in. -/
theorem chunkBits_append (len k : Nat) (ps : List (Word × Word)) (va vb : Word) :
    chunkBits len k (ps ++ [(va, vb)]) = chunkBits len k ps &&& chunkBit (chunkSize len (k + ps.length)) va vb := by
  induction ps generalizing k with
  | nil => exact BitVec.and_comm _ _
  | cons p ps ih =>
    simp only [List.cons_append, chunkBits, ih, List.length_cons, Nat.add_assoc, Nat.add_comm 1, BitVec.and_assoc]

theorem State.traced_of_idle {s : State} (hp : s.phase = .idle) : s.Traced := by
  intro hr
  rw [hp] at hr
  cases hr

/-- At `Issue` no chunk is worked: no read is recorded and `ACC` is the empty AND. -/
theorem State.traced_startBuffer (s : State) (opa opb len : Word) :
    ((s.emit [.issue 2 opa opb len]).startBuffer (baseOperand s.params opa) (baseOperand s.params opb)
      (lengthOperand s.params len)).Traced :=
  fun _ => ⟨opa, opb, len, s.history, [], rfl, rfl, rfl, rfl, rfl, rfl⟩

/-- A `Chunk` step records the two words it read and ANDs in their bit. -/
theorem State.Traced.chunkNext {s : State} (hs : s.Traced) (hlen : s.len.toNat < 2 ^ s.params.lenW) (hp : s.phase = .run)
    (hk : s.k.toNat < numChunks s.len.toNat) (va vb : Word) : (s.chunkNext va vb).Traced := by
  obtain ⟨opa, opb, len, before, ps, hA, hB, hL, hps, hhist, hacc⟩ := hs hp
  refine fun _ => ⟨opa, opb, len, before, ps ++ [(va, vb)], hA, hB, hL, ?_, ?_, ?_⟩
  · rw [List.length_append, hps, State.chunkNext_k_toNat hlen hk]
    rfl
  · simp [State.chunkNext, chunkReads_append, hhist, hps]
  · simp [State.chunkNext, chunkBits_append, hacc, hps]

/-- Settles O44: outside `RUN` there is nothing to show, `Issue` starts the trace, a `Chunk` step extends it, and what the
caller does to the memory is not in it. -/
theorem everyStepKeepsTheTrace : Obligations.EveryStepKeepsTheTrace := by
  intro s t hinv hs e
  obtain ⟨-, -, ⟨hlen, -⟩, -⟩ := hinv
  cases State.stepsTo_of_step e with
  | reset => exact State.traced_of_idle rfl
  | store => exact hs
  | release => exact hs
  | wait => exact hs
  | chunk h va vb _ hp hk => exact State.Traced.chunkNext (s := s.withHost h) hs hlen hp hk va vb
  | complete => exact State.traced_of_idle rfl
  | cmp8 c rest hp => exact State.traced_of_idle hp
  | cmp64 c rest hp => exact State.traced_of_idle hp
  | cmpbuf c rest =>
    have ht := State.traced_startBuffer (s.withHost rest) c.opa c.opb (lowBits s.params.lenW c.len)
    rwa [State.withHost_params, lengthOperand_lowBits] at ht

/-- Settles O42: the registers are 0, no byte is listed, and no command runs. -/
theorem resetMeetsTheInvariant : Obligations.ResetMeetsTheInvariant :=
  ⟨by decide, State.traced_of_idle rfl⟩

end Sys2Proof.Machine

/-! PROOFS. Which steps write which registers (10_state.md R14, R16 to R19, R21, R22). -/

namespace Sys2Proof.Machine

/-- Settles O45: only a reset, `Issue` of `CMPBUF` and a `Chunk` step write a latch or `K`. -/
theorem latchesAndIndexMoveOnlySo : Obligations.LatchesAndIndexMoveOnlySo := by
  intro s t hinv hr e
  obtain ⟨-, -, ⟨hlen, -⟩, -⟩ := hinv
  cases State.stepsTo_of_step e with
  | reset rest hh =>
    rw [hh] at hr
    cases hr
  | chunk h va vb _ hp hk =>
    exact .inl ⟨rfl, rfl, rfl, .inr ⟨hp, hk, State.chunkNext_k_toNat (s := s.withHost h) hlen hk va vb⟩⟩
  | cmpbuf c rest hp hh hop => exact .inr ⟨hp, c, rest, hh, hop, rfl, rfl, rfl, rfl⟩
  | store => exact .inl ⟨rfl, rfl, rfl, .inl rfl⟩
  | release => exact .inl ⟨rfl, rfl, rfl, .inl rfl⟩
  | wait => exact .inl ⟨rfl, rfl, rfl, .inl rfl⟩
  | complete => exact .inl ⟨rfl, rfl, rfl, .inl rfl⟩
  | cmp8 => exact .inl ⟨rfl, rfl, rfl, .inl rfl⟩
  | cmp64 => exact .inl ⟨rfl, rfl, rfl, .inl rfl⟩

/-- A step that keeps `PHASE` meets both clauses of `PhaseChangesOnlySo`. -/
theorem phase_unchanged {p q : Phase} {P Q : Prop} (h : q = p) :
    (p = .idle → q = .run → P) ∧ (p = .run → q = .idle → Q) := by
  subst h
  cases q <;> simp

/-- Settles O46: `PHASE` is written by a reset, `Issue` of `CMPBUF` and `Complete` alone. -/
theorem phaseChangesOnlySo : Obligations.PhaseChangesOnlySo := by
  intro s t e
  cases State.stepsTo_of_step e with
  | reset rest hh => exact ⟨nofun, fun _ _ => .inl (by rw [hh]; rfl)⟩
  | complete h _ _ hk => exact ⟨nofun, fun _ _ => .inr ⟨hk, rfl, rfl⟩⟩
  | cmpbuf c rest _ hh hop => exact ⟨fun _ _ => ⟨c, rest, hh, hop⟩, nofun⟩
  | store => exact phase_unchanged rfl
  | release => exact phase_unchanged rfl
  | wait => exact phase_unchanged rfl
  | chunk => exact phase_unchanged rfl
  | cmp8 => exact phase_unchanged rfl
  | cmp64 => exact phase_unchanged rfl

/-- Settles O47: `RES` and `RVALID` are written by a reset, `Complete` and the `Issue` step of each command alone. -/
theorem resultIsHeldUntilTheNextCommand : Obligations.ResultIsHeldUntilTheNextCommand := by
  intro s t hr e
  cases State.stepsTo_of_step e with
  | reset rest hh =>
    rw [hh] at hr
    cases hr
  | complete h _ hp hk => exact .inr (.inl ⟨hp, hk, rfl, rfl⟩)
  | cmp8 c rest hp hh hop => exact .inr (.inr ⟨hp, c, rest, hh, .inl ⟨hop, rfl, rfl⟩⟩)
  | cmp64 c rest hp hh hop => exact .inr (.inr ⟨hp, c, rest, hh, .inr (.inl ⟨hop, rfl, rfl⟩)⟩)
  | cmpbuf c rest hp hh hop => exact .inr (.inr ⟨hp, c, rest, hh, .inr (.inr ⟨hop, rfl, rfl⟩)⟩)
  | store => exact .inl ⟨rfl, rfl⟩
  | release => exact .inl ⟨rfl, rfl⟩
  | wait => exact .inl ⟨rfl, rfl⟩
  | chunk => exact .inl ⟨rfl, rfl⟩

/-- Settles O53, by the block's own step not depending on the host's list. -/
theorem passLetsTheBlockStep : Obligations.PassLetsTheBlockStep := by
  intro s rest hh
  have hs := step_of_pass hh
  refine ⟨?_, fun hp hk => ?_, fun hp hk => ?_⟩
  · rw [hs, step_of_nil (State.withHost_host s []), ← blockStep_withHost_eq_mapNext]
    rfl
  · exact hs.trans (blockStep_of_lt (s := s.withHost rest) hp hk)
  · exact hs.trans (blockStep_of_eq (s := s.withHost rest) hp hk)

end Sys2Proof.Machine

/-! PROOFS. The hidden registers are not read in `IDLE` (10_state.md R29). -/

namespace Sys2Proof.Machine

section
variable {s : State} (baseA baseB len k : Word) (acc : Bit)

/-- `CMPBUF` writes all five before anything reads them. -/
theorem exec_cmpbuf_withHidden (hp : s.phase = .idle) (opa opb l : Word) :
    exec (.cmpbuf opa opb l) (s.withHidden baseA baseB len k acc) = exec (.cmpbuf opa opb l) s := by
  have hp' : (s.withHidden baseA baseB len k acc).phase = .idle := hp
  simp only [exec, execCmpbuf, hp, hp']
  rfl

/-- Every other instruction neither reads nor writes them. -/
theorem exec_withHidden {i : Instr} (hi : ∀ opa opb l, i ≠ .cmpbuf opa opb l) :
    exec i (s.withHidden baseA baseB len k acc) =
      mapNext (fun t => t.withHidden baseA baseB len k acc) (exec i s) := by
  have hph : (s.withHidden baseA baseB len k acc).phase = s.phase := rfl
  cases i with
  | cmp8 opa opb l =>
    simp only [exec, execCmp8, hph]
    cases s.phase <;> rfl
  | cmp64 opa opb l =>
    simp only [exec, execCmp64, hph]
    cases s.phase <;> rfl
  | cmpbuf opa opb l => exact absurd rfl (hi opa opb l)
  | reserved opa opb l => rfl

/-- A `Reset` step overwrites them. -/
theorem step_withHidden_of_reset (hr : HostResets s.host = true) :
    step (s.withHidden baseA baseB len k acc) = step s := by
  cases hh : s.host with
  | nil =>
    rw [hh] at hr
    cases hr
  | cons x rest =>
    rw [hh] at hr
    cases x with
    | reset =>
      rw [step_of_reset hh, step_of_reset (s := s.withHidden baseA baseB len k acc) hh]
      rfl
    | present c => cases hr
    | pass => cases hr
    | store x v => cases hr
    | release x => cases hr

/-- A handed-over `CMPBUF` overwrites them. -/
theorem step_withHidden_of_cmpbuf (hp : s.phase = .idle) {c : Command} {rest : List HostInput}
    (hh : s.host = .present c :: rest) (hop : c.op = 2) :
    step (s.withHidden baseA baseB len k acc) = step s := by
  have hd : decode (Command.onPorts s.params c) = .cmpbuf c.opa c.opb (lowBits s.params.lenW c.len) := by
    simp only [decode, Command.onPorts, hop]
    rfl
  rw [step_of_present hp hh, step_of_present (s := s.withHidden baseA baseB len k acc) hp hh]
  show exec (decode (Command.onPorts s.params c)) ((s.withHost rest).withHidden baseA baseB len k acc) = _
  rw [hd]
  exact exec_cmpbuf_withHidden (s := s.withHost rest) baseA baseB len k acc hp _ _ _

/-- Every other step of an idle block neither reads nor writes them. -/
theorem step_withHidden_of_other (hp : s.phase = .idle) (hr : HostResets s.host = false)
    (hop : ∀ c rest, s.host = .present c :: rest → c.op ≠ 2) :
    step (s.withHidden baseA baseB len k acc) =
      mapNext (fun t => t.withHidden baseA baseB len k acc) (step s) := by
  cases hh : s.host with
  | nil =>
    rw [step_of_nil hh, step_of_nil (s := s.withHidden baseA baseB len k acc) hh, blockStep_of_idle hp,
      blockStep_of_idle (s := s.withHidden baseA baseB len k acc) hp]
    rfl
  | cons x rest =>
    cases x with
    | reset =>
      rw [hh] at hr
      cases hr
    | pass =>
      rw [step_of_pass hh, step_of_pass (s := s.withHidden baseA baseB len k acc) hh,
        blockStep_of_idle (s := s.withHost rest) hp,
        blockStep_of_idle (s := (s.withHidden baseA baseB len k acc).withHost rest) hp]
      rfl
    | store x v =>
      rw [step_of_store hh, step_of_store (s := s.withHidden baseA baseB len k acc) hh]
      rfl
    | release x =>
      rw [step_of_release hh, step_of_release (s := s.withHidden baseA baseB len k acc) hh]
      rfl
    | present c =>
      rw [step_of_present hp hh, step_of_present (s := s.withHidden baseA baseB len k acc) hp hh]
      exact exec_withHidden (s := s.withHost rest) baseA baseB len k acc
        fun _ _ _ hd => hop c rest hh (op_eq_encode_op hd)

end

/-- Settles O12, by what each kind of step of an idle block does with the five registers. -/
theorem resetValuesAndHiddenRegistersUnread : Obligations.ResetValuesAndHiddenRegistersUnread := by
  refine ⟨⟨rfl, rfl, rfl⟩, fun s baseA baseB len k acc hp => ⟨fun opa opb l => ⟨?_, ?_, ?_⟩, ?_, ?_, ?_⟩⟩
  · exact exec_cmpbuf_withHidden baseA baseB len k acc hp opa opb l
  · exact exec_withHidden baseA baseB len k acc nofun
  · exact exec_withHidden baseA baseB len k acc nofun
  · exact step_withHidden_of_reset baseA baseB len k acc
  · exact fun _ _ => step_withHidden_of_cmpbuf baseA baseB len k acc hp
  · exact step_withHidden_of_other baseA baseB len k acc hp

end Sys2Proof.Machine

/-! PROOFS. The chunks of a buffer tile it (10_state.md R23). -/

namespace Sys2Proof.Machine

/-- The chunk in which the byte at offset `i` lies. -/
def chunkOf (len i : Nat) : Nat :=
  if i < 8 * numWords len then i / 8 else numWords len + (i - 8 * numWords len)

/-- A byte lies in a word chunk, eight to the chunk, or in the tail, one to the chunk. -/
theorem chunkOf_cases (len i : Nat) :
    (i < 8 * (len / 8) ∧ chunkOf len i = i / 8) ∨
    (8 * (len / 8) ≤ i ∧ chunkOf len i = len / 8 + (i - 8 * (len / 8))) := by
  rcases Nat.lt_or_ge i (8 * (len / 8)) with h | h
  · exact .inl ⟨h, if_pos h⟩
  · exact .inr ⟨h, if_neg (Nat.not_lt.mpr h)⟩

theorem chunkOf_lt {len i : Nat} (hi : i < len) : chunkOf len i < numChunks len := by
  have hc := chunkOf_cases len i
  simp only [numChunks, numWords, numTail]
  omega

/-- It is the one chunk that reads this byte. -/
theorem mem_chunk_iff_eq_chunkOf {len i k : Nat} (hi : i < len) :
    (k < numChunks len ∧ chunkOffset len k ≤ i ∧ i < chunkOffset len k + (chunkSize len k).bytes) ↔ k = chunkOf len i := by
  have hc := chunkOf_cases len i
  constructor
  · rintro ⟨hk, hlo, hhi⟩
    rcases chunk_cases hk with ⟨hw, ho, hs⟩ | ⟨hw, hw', ho, hs⟩ <;> simp only [ho, hs, ReadSize.bytes] at hlo hhi <;> omega
  · rintro rfl
    have hk := chunkOf_lt hi
    refine ⟨hk, ?_⟩
    rcases chunk_cases hk with ⟨hw, ho, hs⟩ | ⟨hw, hw', ho, hs⟩ <;> simp only [ho, hs, ReadSize.bytes] <;> omega

/-- Settles O40: offsets and sizes from the two cases of a chunk, and the one chunk of a byte computed by `chunkOf`. -/
theorem chunksTileTheBuffer : Obligations.ChunksTileTheBuffer := by
  intro len
  refine ⟨⟨rfl, rfl, rfl⟩, ?_, fun k hk => ⟨fun hw => ?_, fun hw => ?_, chunk_end_le hk⟩, fun i hi => ?_⟩
  · simp only [numChunks, numWords, numTail]
    omega
  · simp [chunkOffset, chunkSize, hw, ReadSize.bytes]
  · simp [chunkOffset, chunkSize, Nat.not_lt.mpr hw, ReadSize.bytes]
  · exact ⟨chunkOf len i, (mem_chunk_iff_eq_chunkOf hi).mpr rfl, fun k hk => (mem_chunk_iff_eq_chunkOf hi).mp hk⟩

end Sys2Proof.Machine

/-! PROOFS. What reads memory and what writes it (20_memory.md R32 to R36). -/

namespace Sys2Proof.Machine

theorem ReadSize.bytes_le_eight (size : ReadSize) : size.bytes ≤ 8 := by
  cases size <;> decide

/-- Where every byte is readable, a read returns the memory's value there (20_memory.md R33). -/
theorem State.ReadableAt.memRead_eq {s : State} {addr : Nat} {size : ReadSize} (h : s.ReadableAt addr size.bytes) :
    memRead s.params s.mem addr size = some (s.mem.valueAt addr size) := by
  obtain ⟨hspace, hbytes⟩ := h
  obtain ⟨v, hv⟩ := Option.isSome_iff_exists.mp (Memory.readLE_isSome.mpr hbytes)
  rw [memRead, if_pos hspace, Memory.valueAt, hv, Option.getD_some]

/-- Only there has a read a value. -/
theorem readableAt_of_memRead {s : State} {addr : Nat} {size : ReadSize} {v : Word}
    (h : memRead s.params s.mem addr size = some v) : s.ReadableAt addr size.bytes := by
  obtain ⟨hspace, hv⟩ := memRead_some h
  exact ⟨hspace, Memory.readLE_isSome.mp (Option.isSome_of_eq_some hv)⟩

/-- Settles O38, by the lanes of a value read. -/
theorem readAssemblesLittleEndian : Obligations.ReadAssemblesLittleEndian := by
  intro s addr size
  refine ⟨fun h => ⟨_, h.memRead_eq, fun j hj => ?_⟩, fun h => ?_⟩
  · exact Memory.readLE_lane (memRead_some h.memRead_eq).2 size.bytes_le_eight hj
  · exact Option.eq_none_iff_forall_ne_some.mpr fun v hv => h (readableAt_of_memRead hv)

/-- No step but the caller's store and release writes the memory. -/
theorem step_mem_eq {s t : State} (hm : HostTouchesMemory s.host = false) (e : step s = .next t) : t.mem = s.mem := by
  cases State.stepsTo_of_step e with
  | store x v rest hh =>
    rw [hh] at hm
    cases hm
  | release x rest hh =>
    rw [hh] at hm
    cases hm
  | reset => rfl
  | wait => rfl
  | chunk => rfl
  | complete => rfl
  | cmp8 => rfl
  | cmp64 => rfl
  | cmpbuf => rfl

/-- Settles O37: the memory is the same list, so every byte reads as before. -/
theorem blockNeverWritesMemory : Obligations.BlockNeverWritesMemory := by
  intro s t hm e
  have hmem := step_mem_eq hm e
  exact ⟨hmem, fun a => by rw [hmem]⟩

/-- Settles O39, by what a read returns after a write and after an erase. -/
theorem callerStoresAndReleasesBytes : Obligations.CallerStoresAndReleasesBytes := by
  intro s addr v rest
  refine ⟨fun hh => ⟨_, step_of_store hh, fun x => ?_⟩, fun hh => ⟨_, step_of_release hh, fun x => ?_⟩⟩
  · exact Memory.read_writeWithin s.mem (Params.addrSpace s.params) addr v x
  · exact Memory.read_erase s.mem addr x

end Sys2Proof.Machine

/-! PROOFS. A whole `CMPBUF` command over readable buffers and under a quiet host (42_buffer_compare.md R90, R92, R98): the
state after `Issue`, after each chunk and after `Complete`, in closed form. -/

namespace Sys2Proof.Machine

/-! ## The states of the command -/

/-- The state after the `Issue` step of the presented command `c`, of `CMPBUF` (42_buffer_compare.md R83). -/
def State.bufferIssued (s : State) (c : Command) (rest : List HostInput) : State :=
  ((s.withHost rest).emit [.issue 2 c.opa c.opb (lowBits s.params.lenW c.len)]).startBuffer
    (baseOperand s.params c.opa) (baseOperand s.params c.opb) (lengthOperand s.params c.len)

/-- The words the first `m` chunks of the running command read. -/
def State.chunkPairs (s : State) (m : Nat) : List (Word × Word) :=
  (List.range m).map (s.mem.chunkPair s.baseA.toNat s.baseB.toNat s.len.toNat)

/-- The state `m` chunks after `s`, the state in which `Issue` left the block. -/
def State.afterChunks (s : State) (m : Nat) : State :=
  { s with
    acc     := chunkBits s.len.toNat 0 (s.chunkPairs m)
    k       := BitVec.ofNat 64 m
    history := s.history ++ chunkReads s.baseA.toNat s.baseB.toNat s.len.toNat 0 (s.chunkPairs m)
    host    := hostAfter m s.host }

/-- The state after the `Complete` step of the command that `Issue` left in `s`. -/
def State.afterComplete (s : State) : State :=
  let n := numChunks s.len.toNat
  (((s.afterChunks n).withHost (hostAfter (n + 1) s.host)).publish (s.afterChunks n).acc).toIdle

section
variable (s : State) (m : Nat)

@[simp] theorem State.afterChunks_baseA : (s.afterChunks m).baseA = s.baseA := rfl
@[simp] theorem State.afterChunks_baseB : (s.afterChunks m).baseB = s.baseB := rfl
@[simp] theorem State.afterChunks_len : (s.afterChunks m).len = s.len := rfl
@[simp] theorem State.afterChunks_acc : (s.afterChunks m).acc = chunkBits s.len.toNat 0 (s.chunkPairs m) := rfl
@[simp] theorem State.afterChunks_host : (s.afterChunks m).host = hostAfter m s.host := rfl
@[simp] theorem State.afterChunks_history : (s.afterChunks m).history =
    s.history ++ chunkReads s.baseA.toNat s.baseB.toNat s.len.toNat 0 (s.chunkPairs m) := rfl

end

@[simp] theorem State.length_chunkPairs (s : State) (m : Nat) : (s.chunkPairs m).length = m := by
  simp [State.chunkPairs]

theorem State.chunkPairs_succ {s : State} {m : Nat} {va vb : Word}
    (h : s.mem.chunkPair s.baseA.toNat s.baseB.toNat s.len.toNat m = (va, vb)) :
    s.chunkPairs (m + 1) = s.chunkPairs m ++ [(va, vb)] := by
  simp [State.chunkPairs, List.range_succ, h]

theorem State.afterChunks_zero {s : State} (hk : s.k = 0) (hacc : s.acc = 1) : s.afterChunks 0 = s := by
  obtain ⟨params, phase, baseA, baseB, len, k, acc, res, rvalid, mem, history, host, draws⟩ := s
  obtain rfl : k = 0 := hk
  obtain rfl : acc = 1 := hacc
  simp [State.afterChunks, State.chunkPairs, chunkBits, chunkReads]

/-- `K` counts the chunks worked. -/
theorem State.afterChunks_k_toNat {s : State} {m : Nat} (hm : m ≤ numChunks s.len.toNat) :
    (s.afterChunks m).k.toNat = m := by
  have hle := numChunks_le s.len.toNat
  have h64 := s.len.isLt
  exact Nat.mod_eq_of_lt (by omega)

/-! ## The steps of the command -/

/-- The operation code 2 is `CMPBUF`'s (30_encoding.md R53). -/
theorem decode_onPorts_of_op_eq_two {p : Params} {c : Command} (hop : c.op = 2) :
    decode (Command.onPorts p c) = .cmpbuf c.opa c.opb (lowBits p.lenW c.len) := by
  simp only [decode, Command.onPorts, hop]
  rfl

theorem step_eq_bufferIssued {s : State} {c : Command} {rest : List HostInput} (hp : s.phase = .idle)
    (hh : s.host = .present c :: rest) (hop : c.op = 2) : step s = .next (s.bufferIssued c rest) := by
  rw [step_of_present hp hh, decode_onPorts_of_op_eq_two hop]
  simp only [exec, execCmpbuf, State.withHost_phase, hp, State.withHost_params, lengthOperand_lowBits]
  rfl

/-- A chunk of a readable buffer is readable (20_memory.md R36, 43_common_laws.md R102). -/
theorem State.BufferReadable.chunk {s : State} {base len k : Nat} (h : s.BufferReadable base len)
    (hk : k < numChunks len) : s.ReadableAt (base + chunkOffset len k) (chunkSize len k).bytes := by
  have hend := chunk_end_le hk
  have hpos : 0 < (chunkSize len k).bytes := by
    cases chunkSize len k <;> decide
  refine ⟨?_, fun j hj => ?_⟩
  · have hlast := (h (chunkOffset len k + ((chunkSize len k).bytes - 1)) (by omega)).1
    omega
  · rw [Nat.add_assoc]
    exact (h (chunkOffset len k + j) (by omega)).2

theorem chunkStep_eq_next {s : State} {va vb : Word}
    (ha : memRead s.params s.mem (s.chunkAddr s.baseA) s.chunkWidth = some va)
    (hb : memRead s.params s.mem (s.chunkAddr s.baseB) s.chunkWidth = some vb) :
    chunkStep s = .next (s.chunkNext va vb) := by
  simp only [chunkStep, ha, hb]

section
variable {s : State}

/-- Working chunk `m` leads from `m` chunks worked to `m + 1`. -/
theorem State.chunkNext_afterChunks {m : Nat} {va vb : Word} (hlen : s.len.toNat < 2 ^ s.params.lenW)
    (hm : m < numChunks s.len.toNat)
    (hv : s.mem.chunkPair s.baseA.toNat s.baseB.toNat s.len.toNat m = (va, vb)) :
    (s.afterChunks m).chunkNext va vb = (s.afterChunks (m + 1)).withHost (hostAfter m s.host) := by
  have hk : (s.afterChunks m).k.toNat = m := State.afterChunks_k_toNat hm.le
  have hk' : ((s.afterChunks m).chunkNext va vb).k = (s.afterChunks (m + 1)).k := by
    apply BitVec.eq_of_toNat_eq
    rw [State.chunkNext_k_toNat (s := s.afterChunks m) hlen (by rwa [hk]), hk, State.afterChunks_k_toNat hm]
  have hacc : ((s.afterChunks m).chunkNext va vb).acc = (s.afterChunks (m + 1)).acc := by
    simp [State.chunkNext, State.chunkWidth, hk, State.chunkPairs_succ hv, chunkBits_append]
  have hhist : ((s.afterChunks m).chunkNext va vb).history = (s.afterChunks (m + 1)).history := by
    simp [State.chunkNext, State.chunkWidth, hk, State.chunkPairs_succ hv, chunkReads_append]
  calc (s.afterChunks m).chunkNext va vb
      = { s.afterChunks m with
            acc     := ((s.afterChunks m).chunkNext va vb).acc
            k       := ((s.afterChunks m).chunkNext va vb).k
            history := ((s.afterChunks m).chunkNext va vb).history } := rfl
    _ = (s.afterChunks (m + 1)).withHost (hostAfter m s.host) := by
      rw [hacc, hk', hhist]
      rfl

/-- One `Chunk` step of a command over readable buffers. -/
theorem step_afterChunks {m : Nat} (hp : s.phase = .run) (hlen : s.len.toNat < 2 ^ s.params.lenW)
    (hA : s.BufferReadable s.baseA.toNat s.len.toNat) (hB : s.BufferReadable s.baseB.toNat s.len.toNat)
    (hm : m < numChunks s.len.toNat) (q : HostQuietFor (m + 1) s.host = true) :
    step (s.afterChunks m) = .next (s.afterChunks (m + 1)) := by
  obtain ⟨hquiet, hleft⟩ := hostAfter_succ q
  have hk : (s.afterChunks m).k.toNat = m := State.afterChunks_k_toNat hm.le
  have hreadA := (hA.chunk hm).memRead_eq
  have hreadB := (hB.chunk hm).memRead_eq
  rw [← hk] at hreadA hreadB
  rw [step_of_hostQuietFor (s := s.afterChunks m) hp hquiet, blockStep_withHost_eq_mapNext,
    blockStep_of_lt (s := s.afterChunks m) hp (by rwa [hk]), chunkStep_eq_next hreadA hreadB, hk,
    State.chunkNext_afterChunks hlen hm rfl, State.afterChunks_host, ← hleft]
  rfl

theorem runSteps_afterChunks {m : Nat} (hp : s.phase = .run) (hk : s.k = 0) (hacc : s.acc = 1)
    (hlen : s.len.toNat < 2 ^ s.params.lenW)
    (hA : s.BufferReadable s.baseA.toNat s.len.toNat) (hB : s.BufferReadable s.baseB.toNat s.len.toNat)
    (hm : m ≤ numChunks s.len.toNat) (q : HostQuietFor m s.host = true) :
    runSteps m s = .next (s.afterChunks m) := by
  induction m with
  | zero => rw [runSteps_zero, State.afterChunks_zero hk hacc]
  | succ m ih =>
    rw [runSteps_succ_last (ih (Nat.le_of_succ_le hm) (HostQuietFor_pred q)), step_afterChunks hp hlen hA hB hm q]

/-- The `Complete` step of the command, after its last chunk. -/
theorem step_afterChunks_numChunks (hp : s.phase = .run) (q : HostQuietFor (numChunks s.len.toNat + 1) s.host = true) :
    step (s.afterChunks (numChunks s.len.toNat)) = .next s.afterComplete := by
  obtain ⟨hquiet, hleft⟩ := hostAfter_succ q
  have hk : (s.afterChunks (numChunks s.len.toNat)).k.toNat = numChunks s.len.toNat :=
    State.afterChunks_k_toNat (Nat.le_refl _)
  rw [step_of_hostQuietFor (s := s.afterChunks _) hp hquiet, blockStep_withHost_eq_mapNext,
    blockStep_of_eq (s := s.afterChunks _) hp hk, State.afterChunks_host, ← hleft]
  rfl

end

section
variable {s : State} {c : Command} {rest : List HostInput}

/-- The first `m + 1` steps of a presented `CMPBUF` command: `Issue` and `m` chunks. -/
theorem runSteps_cmpbuf_chunks {m : Nat} (hp : s.phase = .idle) (hh : s.host = .present c :: rest) (hop : c.op = 2)
    (hA : s.BufferReadable (baseOperand s.params c.opa).toNat (lengthOperand s.params c.len).toNat)
    (hB : s.BufferReadable (baseOperand s.params c.opb).toNat (lengthOperand s.params c.len).toNat)
    (hm : m ≤ numChunks (lengthOperand s.params c.len).toNat) (q : HostQuietFor m rest = true) :
    runSteps (m + 1) s = .next ((s.bufferIssued c rest).afterChunks m) := by
  rw [runSteps_succ_next (step_eq_bufferIssued hp hh hop)]
  exact runSteps_afterChunks (s := s.bufferIssued c rest) rfl rfl rfl (lowBits_lt _ _) hA hB hm q

/-- The `NCH + 2` steps of a presented `CMPBUF` command (42_buffer_compare.md R98). -/
theorem runSteps_cmpbuf (hp : s.phase = .idle) (hh : s.host = .present c :: rest) (hop : c.op = 2)
    (hA : s.BufferReadable (baseOperand s.params c.opa).toNat (lengthOperand s.params c.len).toNat)
    (hB : s.BufferReadable (baseOperand s.params c.opb).toNat (lengthOperand s.params c.len).toNat)
    (q : HostQuietFor (numChunks (lengthOperand s.params c.len).toNat + 1) rest = true) :
    runSteps (numChunks (lengthOperand s.params c.len).toNat + 2) s = .next (s.bufferIssued c rest).afterComplete := by
  rw [runSteps_succ_last (runSteps_cmpbuf_chunks hp hh hop hA hB (Nat.le_refl _) (HostQuietFor_pred q))]
  exact step_afterChunks_numChunks (s := s.bufferIssued c rest) rfl q

end

end Sys2Proof.Machine

/-! PROOFS. The result of a command on aliased buffers, and the addresses and sizes a command reads (20_memory.md R40, R49). -/

namespace Sys2Proof.Machine

/-! ## Aliased buffers -/

/-- Equal values carry out of the `+1` adder: the complement of their difference is all ones. -/
theorem eq8_self (b : Byte) : eq8 b b = 1 := by
  rw [eq8, cmpSum8, cmpX8_eq, BitVec.xor_self]
  rfl

theorem eq64_self (b : Word) : eq64 b b = 1 := by
  rw [eq64, cmpSum64, cmpX64_eq, BitVec.xor_self]
  rfl

theorem chunkBit_self (size : ReadSize) (v : Word) : chunkBit size v v = 1 := by
  cases size with
  | one => exact eq8_self _
  | eight => exact eq64_self v

/-- The accumulated bit is 1 where every chunk read the same value twice. -/
theorem chunkBits_eq_one (len : Nat) {k : Nat} {ps : List (Word × Word)} (h : ∀ p ∈ ps, p.1 = p.2) :
    chunkBits len k ps = 1 := by
  induction ps generalizing k with
  | nil => rfl
  | cons p ps ih =>
    obtain ⟨va, vb⟩ := p
    obtain ⟨rfl, hps⟩ : va = vb ∧ ∀ p ∈ ps, p.1 = p.2 := List.forall_mem_cons.mp h
    rw [chunkBits, chunkBit_self, ih hps]
    rfl

theorem State.fst_eq_snd_of_mem_chunkPairs {s : State} {m : Nat} (h : s.baseA = s.baseB) :
    ∀ p ∈ s.chunkPairs m, p.1 = p.2 := by
  intro p hp
  obtain ⟨k, -, rfl⟩ := List.mem_map.mp hp
  rw [h]
  rfl

/-- Settles O35: every chunk reads the same value twice, so every bit ANDed into `ACC` is 1. -/
theorem aliasedBuffersAreEqual : Obligations.AliasedBuffersAreEqual := by
  intro s c rest hp hh hop q hab hA
  have hB := hA
  rw [hab] at hB
  exact ⟨_, runSteps_cmpbuf hp hh hop hA hB q, rfl, rfl,
    chunkBits_eq_one _ (State.fst_eq_snd_of_mem_chunkPairs (s := s.bufferIssued c rest) hab)⟩

/-! ## The access pattern -/

/-- What chunk `k` of a command shows on the read port. -/
def chunkPorts (a b len k : Nat) : List (Nat × Bit) :=
  let size : Bit := if k < numWords len then 1 else 0
  [(a + chunkOffset len k, size), (b + chunkOffset len k, size)]

theorem accessPattern_eq_flatMap (a b len : Nat) :
    accessPattern a b len = (List.range (numChunks len)).flatMap (chunkPorts a b len) := rfl

/-- The two reads of a chunk show its addresses and its size, not the values. -/
theorem readPort_chunk (a b len k : Nat) (va vb : Word) :
    [Event.read (a + chunkOffset len k) (chunkSize len k) va,
      Event.read (b + chunkOffset len k) (chunkSize len k) vb].filterMap Event.readPort = chunkPorts a b len k := by
  by_cases hk : k < numWords len <;> simp [chunkSize, chunkPorts, Event.readPort, hk]

/-- The reads of the chunks from `k` on show as many chunks as there are pairs of values, whatever the values. -/
theorem readPort_chunkReads (a b len k : Nat) (ps : List (Word × Word)) :
    (chunkReads a b len k ps).filterMap Event.readPort = (List.range' k ps.length).flatMap (chunkPorts a b len) := by
  induction ps generalizing k with
  | nil => rfl
  | cons p ps ih =>
    obtain ⟨va, vb⟩ := p
    rw [List.length_cons, List.range'_succ, List.flatMap_cons, ← readPort_chunk a b len k va vb, ← ih (k + 1),
      ← List.filterMap_append]
    rfl

theorem readPort_reads_of_chunkPairs (s : State) :
    (chunkReads s.baseA.toNat s.baseB.toNat s.len.toNat 0 (s.chunkPairs (numChunks s.len.toNat))).filterMap
      Event.readPort = accessPattern s.baseA.toNat s.baseB.toNat s.len.toNat := by
  rw [readPort_chunkReads, State.length_chunkPairs, ← List.range_eq_range', accessPattern_eq_flatMap]

/-- What a command appends after its `Issue` shows its reads alone. -/
theorem State.exists_afterComplete_history (s : State) :
    ∃ h, s.afterComplete.history = s.history ++ h ∧
      h.filterMap Event.readPort = accessPattern s.baseA.toNat s.baseB.toNat s.len.toNat := by
  refine ⟨_, List.append_assoc _ _ _, ?_⟩
  rw [List.filterMap_append, readPort_reads_of_chunkPairs]
  exact List.append_nil _

/-- Settles O36: `Issue` and `Complete` show no read, and what the reads of the chunks show does not depend on the values. -/
theorem accessPatternIsPublic : Obligations.AccessPatternIsPublic := by
  intro s c rest hp hh hop hq a b l hA hB
  obtain ⟨h, hhist, hports⟩ := (s.bufferIssued c rest).exists_afterComplete_history
  exact ⟨_, .issue 2 c.opa c.opb (lowBits s.params.lenW c.len) :: h,
    runSteps_cmpbuf hp hh hop hA hB (HostQuietFor_of_quiet hq _).1, hhist.trans (List.append_assoc _ _ _), hports⟩

end Sys2Proof.Machine

/-! PROOFS. Bytes and the byte record of a command (log 11): both directions of the decoder, and the records it refuses. -/

namespace Sys2Proof.Machine

/-! ## Numbers as bytes -/

@[simp] theorem length_leBytes (n v : Nat) : (leBytes n v).length = n := by
  induction n generalizing v with
  | zero => rfl
  | succ n ih => rw [leBytes, List.length_cons, ih]

theorem leValue_leBytes (n v : Nat) : leValue (leBytes n v) = v % 256 ^ n := by
  induction n generalizing v with
  | zero => exact (Nat.mod_one v).symm
  | succ n ih =>
    calc leValue (leBytes (n + 1) v)
        = v % 256 + 256 * (v / 256 % 256 ^ n) := by rw [leBytes, leValue, ih, BitVec.toNat_ofNat]
      _ = v % 256 ^ (n + 1) := by rw [Nat.pow_succ', Nat.mod_mul (a := 256)]

theorem leBytes_leValue (bs : List Byte) : leBytes bs.length (leValue bs) = bs := by
  induction bs with
  | nil => rfl
  | cons b bs ih =>
    have hb := b.isLt
    have hlow : BitVec.ofNat 8 (b.toNat + 256 * leValue bs) = b := by bv_omega
    rw [List.length_cons, leBytes, leValue, hlow, show (b.toNat + 256 * leValue bs) / 256 = leValue bs by omega, ih]

theorem leValue_lt (bs : List Byte) : leValue bs < 256 ^ bs.length := by
  rw [← leBytes_leValue bs, leValue_leBytes, length_leBytes]
  exact Nat.mod_lt _ (Nat.pow_pos (by decide))

/-- A word is the number of its eight bytes. -/
theorem ofNat_leValue_leBytes (v : Word) : BitVec.ofNat 64 (leValue (leBytes 8 v.toNat)) = v := by
  rw [leValue_leBytes, Nat.mod_eq_of_lt (show v.toNat < 256 ^ 8 from v.isLt), BitVec.ofNat_toNat, BitVec.setWidth_eq]

/-- Eight bytes are the bytes of the word they stand for. -/
theorem leBytes_ofNat_leValue {bs : List Byte} (h : bs.length = 8) :
    leBytes 8 (BitVec.ofNat 64 (leValue bs)).toNat = bs := by
  have hlt : leValue bs < 2 ^ 64 := by simpa [h] using leValue_lt bs
  rw [BitVec.toNat_ofNat, Nat.mod_eq_of_lt hlt, ← h, leBytes_leValue]

/-- `op` is bits 1:0 of the byte that holds it. -/
theorem op_of_byte_of_op (op : BitVec 2) : BitVec.ofNat 2 (BitVec.ofNat 8 op.toNat).toNat = op := by
  bv_omega

/-- The byte that holds the `op` read from `b` is `b` without its six ignored bits. -/
theorem byte_of_op_of_byte (b : Byte) : BitVec.ofNat 8 (BitVec.ofNat 2 b.toNat).toNat = b &&& 3#8 := by
  have hmask : (b &&& 3#8).toNat = b.toNat % 4 := Nat.and_two_pow_sub_one_eq_mod b.toNat 2
  bv_omega

/-! ## The record of a command -/

/-- What the record parser reads from a first byte and three times eight bytes, and that it leaves the bytes after them. -/
theorem ofBytes_of_fields (b : Byte) {xs ys zs : List Byte} (rest : List Byte) (hx : xs.length = 8) (hy : ys.length = 8)
    (hz : zs.length = 8) :
    Command.ofBytes (b :: (xs ++ ys ++ zs ++ rest)) =
      .ok ({ op  := BitVec.ofNat 2 b.toNat
             opa := BitVec.ofNat 64 (leValue xs)
             opb := BitVec.ofNat 64 (leValue ys)
             len := BitVec.ofNat 64 (leValue zs) }, rest) := by
  have hlen : ¬ (xs ++ ys ++ zs ++ rest).length < 24 := by
    simp only [List.length_append]
    omega
  have hd8 : (xs ++ ys ++ zs ++ rest).drop 8 = ys ++ (zs ++ rest) := by
    rw [List.append_assoc, List.append_assoc, List.drop_left' hx]
  have hd16 : (xs ++ ys ++ zs ++ rest).drop 16 = zs ++ rest := by
    rw [List.append_assoc, List.drop_left' (by simp [hx, hy])]
  have hd24 : (xs ++ ys ++ zs ++ rest).drop 24 = rest := List.drop_left' (by simp [hx, hy, hz])
  rw [Command.ofBytes, if_neg hlen, hd8, hd16, hd24, List.append_assoc, List.append_assoc, List.take_left' hx,
    List.take_left' hy, List.take_left' hz]

theorem ofBytes_of_lt {bs : List Byte} (h : bs.length < 25) : Command.ofBytes bs = .error (.truncated bs.length) := by
  cases bs with
  | nil => rfl
  | cons b bs => rw [Command.ofBytes, if_pos (Nat.lt_of_succ_lt_succ h), List.length_cons]

/-- A list at least as long as a record is a first byte, three times eight bytes, and the bytes after the record. -/
theorem exists_fields {bs : List Byte} (h : 25 ≤ bs.length) :
    ∃ (b : Byte) (xs ys zs rest : List Byte),
      bs = b :: (xs ++ ys ++ zs ++ rest) ∧ xs.length = 8 ∧ ys.length = 8 ∧ zs.length = 8 := by
  cases bs with
  | nil => cases h
  | cons b bs =>
    rw [List.length_cons] at h
    refine ⟨b, bs.take 8, (bs.drop 8).take 8, (bs.drop 16).take 8, bs.drop 24, ?_, ?_, ?_, ?_⟩
    · rw [← List.take_add, ← List.take_add, List.take_append_drop]
    · rw [List.length_take]
      omega
    · rw [List.length_take, List.length_drop]
      omega
    · rw [List.length_take, List.length_drop]
      omega

/-- The record of a command, read back. -/
theorem ofBytes_toBytes_append (c : Command) (rest : List Byte) : Command.ofBytes (c.toBytes ++ rest) = .ok (c, rest) := by
  rw [Command.toBytes, List.cons_append, ofBytes_of_fields _ _ (length_leBytes 8 _) (length_leBytes 8 _) (length_leBytes 8 _),
    op_of_byte_of_op, ofNat_leValue_leBytes, ofNat_leValue_leBytes, ofNat_leValue_leBytes]

/-- What was read, written as a record again. -/
theorem toBytes_of_ofBytes {bs rest : List Byte} {c : Command} (h : Command.ofBytes bs = .ok (c, rest)) :
    ∃ (b : Byte) (tail : List Byte),
      bs = b :: (tail ++ rest) ∧ tail.length = 24 ∧ c.toBytes = (b &&& 3#8) :: tail := by
  rcases Nat.lt_or_ge bs.length 25 with hlt | hge
  · rw [ofBytes_of_lt hlt] at h
    cases h
  · obtain ⟨b, xs, ys, zs, after, rfl, hx, hy, hz⟩ := exists_fields hge
    rw [ofBytes_of_fields b after hx hy hz] at h
    cases h
    refine ⟨b, xs ++ ys ++ zs, rfl, by simp [hx, hy, hz], ?_⟩
    rw [Command.toBytes, byte_of_op_of_byte, leBytes_ofNat_leValue hx, leBytes_ofNat_leValue hy, leBytes_ofNat_leValue hz]

/-! ## Instructions as bytes -/

theorem decode_encode (i : Instr) : decode (encode i) = i := by
  cases i with
  | cmp8 opa opb len => exact Laws.RoundTrip.cmp8 opa opb len
  | cmp64 opa opb len => exact Laws.RoundTrip.cmp64 opa opb len
  | cmpbuf opa opb len => exact Laws.RoundTrip.cmpbuf opa opb len
  | reserved opa opb len => exact Laws.RoundTrip.reserved opa opb len

theorem decodeBytes_of_ok {bs rest : List Byte} {c : Command} (h : Command.ofBytes bs = .ok (c, rest)) :
    decodeBytes bs = .ok (decode c, rest) := by
  rw [decodeBytes, h]

theorem decodeBytes_of_error {bs : List Byte} {e : DecodeError} (h : Command.ofBytes bs = .error e) :
    decodeBytes bs = .error e := by
  rw [decodeBytes, h]

/-- Settles O1: the record is the command's, field by field, and the command decodes to the instruction. -/
theorem decodeOfEncodedBytesIsTheInstruction : Obligations.DecodeOfEncodedBytesIsTheInstruction := by
  intro i rest
  rw [encodeBytes, decodeBytes_of_ok (ofBytes_toBytes_append (encode i) rest), decode_encode]

/-- Settles O2: the instruction is encoded as the command it was decoded from, whose record was read. -/
theorem encodeOfDecodedBytesIsTheRecord : Obligations.EncodeOfDecodedBytesIsTheRecord := by
  intro bs rest i h
  cases hc : Command.ofBytes bs with
  | error e =>
    rw [decodeBytes_of_error hc] at h
    cases h
  | ok p =>
    obtain ⟨c, after⟩ := p
    rw [decodeBytes_of_ok hc] at h
    cases h
    rw [encodeBytes, encode_decode]
    exact toBytes_of_ofBytes hc

/-- Settles O3: a shorter list is refused with its length, and one at least that long has all its fields. -/
theorem onlyShortRecordsAreRejected : Obligations.OnlyShortRecordsAreRejected := by
  intro bs e
  rcases Nat.lt_or_ge bs.length 25 with hlt | hge
  · rw [decodeBytes_of_error (ofBytes_of_lt hlt), Except.error.injEq, eq_comm]
    exact (and_iff_right hlt).symm
  · obtain ⟨b, xs, ys, zs, rest, hbs, hx, hy, hz⟩ := exists_fields hge
    rw [decodeBytes_of_ok (hbs ▸ ofBytes_of_fields b rest hx hy hz)]
    exact ⟨nofun, fun h => absurd h.1 (Nat.not_lt.mpr hge)⟩

/-! ## The operation field -/

theorem op_cases (op : BitVec 2) : op = 0 ∨ op = 1 ∨ op = 2 ∨ op = 3 := by bv_omega

/-- Settles O4, by the four values of `op`. -/
theorem decoderReadsTheOperationFieldAlone : Obligations.DecoderReadsTheOperationFieldAlone := by
  rintro ⟨op, opa, opb, len⟩
  rcases op_cases op with rfl | rfl | rfl | rfl <;> rfl

/-- Settles O5, by evaluating the decoder on the five words. -/
theorem sampleWordsDecode : Obligations.SampleWordsDecode := by
  unfold Obligations.SampleWordsDecode
  decide

/-! ## What the ports carry -/

/-- The one check reads `len`, whatever the operation. -/
theorem wellFormed_decode (p : Params) (c : Command) : (decode c).wellFormed p = fitsWidth p.lenW c.len := by
  unfold decode
  split <;> rfl

/-- A `len` that fits its port loses nothing on it. -/
theorem onPorts_eq_self {p : Params} {c : Command} (h : (decode c).wellFormed p = true) : Command.onPorts p c = c := by
  rw [wellFormed_decode, fitsWidth, decide_eq_true_eq] at h
  rw [Command.onPorts, lowBits_eq_self h]

/-- Settles O6: what the `len` port carries fits it. -/
theorem portsCarryWellFormedCommands : Obligations.PortsCarryWellFormedCommands := by
  intro p c
  rw [wellFormed_decode]
  exact decide_eq_true (lowBits_lt p.lenW c.len)

/-- Settles O7: the step of a presented command, which is on the ports as presented where it is well-formed. -/
theorem stepIssuesThePresentedCommand : Obligations.StepIssuesThePresentedCommand := by
  intro s c rest hp hh
  have hs := step_of_present hp hh
  refine ⟨hs, ?_⟩
  rintro i rfl hi
  rw [hs, onPorts_eq_self hi]

/-- Settles O50: a container of at least one bit holds the number of the bit. -/
theorem widenedResultIsZeroOrOne : Obligations.WidenedResultIsZeroOrOne := by
  intro s n hn
  have hres := s.res.isLt
  have hw : (s.resultWidened n).toNat = s.res.toNat := BitVec.toNat_setWidth_of_le hn
  omega

end Sys2Proof.Machine

/-! PROOFS. Ignored operand bits (30_encoding.md R54 to R58): no step reads the operand fields that `Issue` events record, so
commands that differ in ignored bits alone run alike. -/

namespace Sys2Proof.Machine

/-! ## Clearing the operand fields of `Issue` events -/

theorem Event.issueCleared_idem (e : Event) : (Event.issueCleared e).issueCleared = e.issueCleared := by
  cases e <;> rfl

section
variable (s : State)

@[simp] theorem State.issuesCleared_params : s.issuesCleared.params = s.params := rfl
@[simp] theorem State.issuesCleared_phase : s.issuesCleared.phase = s.phase := rfl
@[simp] theorem State.issuesCleared_baseA : s.issuesCleared.baseA = s.baseA := rfl
@[simp] theorem State.issuesCleared_baseB : s.issuesCleared.baseB = s.baseB := rfl
@[simp] theorem State.issuesCleared_len : s.issuesCleared.len = s.len := rfl
@[simp] theorem State.issuesCleared_k : s.issuesCleared.k = s.k := rfl
@[simp] theorem State.issuesCleared_acc : s.issuesCleared.acc = s.acc := rfl
@[simp] theorem State.issuesCleared_mem : s.issuesCleared.mem = s.mem := rfl

@[simp] theorem State.issuesCleared_idem : s.issuesCleared.issuesCleared = s.issuesCleared := by
  simp [State.issuesCleared, Function.comp_def, Event.issueCleared_idem]

/-! What clearing leaves of each update: the update of the cleared state, the events it appends cleared too. -/

@[simp] theorem State.issuesCleared_emit (es : List Event) :
    (s.emit es).issuesCleared = s.issuesCleared.emit (es.map Event.issueCleared) := by
  simp [State.issuesCleared, State.emit]

@[simp] theorem State.issuesCleared_publish (r : Bit) : (s.publish r).issuesCleared = s.issuesCleared.publish r := by
  simp [State.issuesCleared, State.publish, Event.issueCleared]

@[simp] theorem State.issuesCleared_resetBlock : s.resetBlock.issuesCleared = s.issuesCleared.resetBlock := by
  simp [State.issuesCleared, State.resetBlock, Event.issueCleared]

@[simp] theorem State.issuesCleared_toIdle : s.toIdle.issuesCleared = s.issuesCleared.toIdle := rfl

@[simp] theorem State.issuesCleared_startBuffer (a b l : Word) :
    (s.startBuffer a b l).issuesCleared = s.issuesCleared.startBuffer a b l := rfl

@[simp] theorem State.issuesCleared_accumulate (r : Bit) :
    (s.accumulate r).issuesCleared = s.issuesCleared.accumulate r := rfl

@[simp] theorem State.issuesCleared_withHost (h : List HostInput) :
    (s.withHost h).issuesCleared = s.issuesCleared.withHost h := rfl

@[simp] theorem State.issuesCleared_callerStore (x : Nat) (v : Byte) :
    (s.callerStore x v).issuesCleared = s.issuesCleared.callerStore x v := rfl

@[simp] theorem State.issuesCleared_callerRelease (x : Nat) :
    (s.callerRelease x).issuesCleared = s.issuesCleared.callerRelease x := rfl

/-- A fault records the history, cleared with the state. -/
@[simp] theorem outcomeIssuesCleared_unreadable (addr : Nat) (size : ReadSize) (buf : Buffer) :
    outcomeIssuesCleared (.fault (s.unreadable addr size buf)) = .fault (s.issuesCleared.unreadable addr size buf) := rfl

end

theorem outcomeIssuesCleared_mapNext (o : Host.Outcome State Fault Refusal) :
    outcomeIssuesCleared (mapNext State.issuesCleared o) = outcomeIssuesCleared o := by
  cases o with
  | next s => simp
  | fault f => rfl
  | refused r => rfl

/-- Outcomes whose next states agree once cleared agree once cleared. -/
theorem outcomeIssuesCleared_congr {o o' : Host.Outcome State Fault Refusal}
    (h : mapNext State.issuesCleared o = mapNext State.issuesCleared o') :
    outcomeIssuesCleared o = outcomeIssuesCleared o' := by
  rw [← outcomeIssuesCleared_mapNext, h, outcomeIssuesCleared_mapNext]

/-! ## Two equations of the step functions -/

/-- `K` above `NCH` enables no step (log 17). -/
theorem blockStep_of_gt {s : State} (hp : s.phase = .run) (hk : numChunks s.len.toNat < s.k.toNat) :
    blockStep s = .next s := by
  simp only [blockStep, hp, if_neg hk.not_gt, if_neg hk.ne']

/-- A command presented to a running block waits (70_reset_and_hazards.md R143). -/
theorem step_of_present_run {s : State} {c : Command} {rest : List HostInput} (hp : s.phase = .run)
    (hh : s.host = .present c :: rest) : step s = blockStep s := by
  simp only [step, advance, hh, hp]

/-! ## No step reads what is cleared -/

theorem outcomeIssuesCleared_chunkStep (s : State) :
    outcomeIssuesCleared (chunkStep s.issuesCleared) = outcomeIssuesCleared (chunkStep s) := by
  cases ha : memRead s.params s.mem (s.chunkAddr s.baseA) s.chunkWidth with
  | none => simp [chunkStep, ha]
  | some va =>
    cases hb : memRead s.params s.mem (s.chunkAddr s.baseB) s.chunkWidth with
    | none => simp [chunkStep, ha, hb]
    | some vb => simp [chunkStep, ha, hb]

theorem outcomeIssuesCleared_blockStep (s : State) :
    outcomeIssuesCleared (blockStep s.issuesCleared) = outcomeIssuesCleared (blockStep s) := by
  rcases blockStep_cases s with ⟨hp, hb⟩ | ⟨hp, hk, hb⟩ | ⟨hp, hk, hb⟩ | ⟨hp, hk, hb⟩ <;> rw [hb]
  · rw [blockStep_of_idle (s := s.issuesCleared) hp]
    simp
  · rw [blockStep_of_lt (s := s.issuesCleared) hp hk]
    exact outcomeIssuesCleared_chunkStep s
  · rw [blockStep_of_eq (s := s.issuesCleared) hp hk]
    simp [completeStep]
  · rw [blockStep_of_gt (s := s.issuesCleared) hp hk]
    simp

theorem outcomeIssuesCleared_exec (i : Instr) (s : State) :
    outcomeIssuesCleared (exec i s.issuesCleared) = outcomeIssuesCleared (exec i s) := by
  cases i with
  | cmp8 opa opb len =>
    simp only [exec, execCmp8, State.issuesCleared_phase]
    cases s.phase <;> simp
  | cmp64 opa opb len =>
    simp only [exec, execCmp64, State.issuesCleared_phase]
    cases s.phase <;> simp
  | cmpbuf opa opb len =>
    simp only [exec, execCmpbuf, State.issuesCleared_phase]
    cases s.phase <;> simp
  | reserved opa opb len => rfl

theorem outcomeIssuesCleared_step (s : State) :
    outcomeIssuesCleared (step s.issuesCleared) = outcomeIssuesCleared (step s) := by
  cases hh : s.host with
  | nil =>
    rw [step_of_nil hh, step_of_nil (s := s.issuesCleared) hh]
    exact outcomeIssuesCleared_blockStep s
  | cons x rest =>
    cases x with
    | reset =>
      rw [step_of_reset hh, step_of_reset (s := s.issuesCleared) hh]
      simp
    | pass =>
      rw [step_of_pass hh, step_of_pass (s := s.issuesCleared) hh]
      exact outcomeIssuesCleared_blockStep (s.withHost rest)
    | store x v =>
      rw [step_of_store hh, step_of_store (s := s.issuesCleared) hh]
      simp
    | release x =>
      rw [step_of_release hh, step_of_release (s := s.issuesCleared) hh]
      simp
    | present c =>
      cases hp : s.phase with
      | idle =>
        rw [step_of_present hp hh, step_of_present (s := s.issuesCleared) hp hh]
        exact outcomeIssuesCleared_exec _ (s.withHost rest)
      | run =>
        rw [step_of_present_run hp hh, step_of_present_run (s := s.issuesCleared) hp hh]
        exact outcomeIssuesCleared_blockStep s

/-! ## Whole runs -/

/-- The outcome of `n` steps more after a step, both cleared. -/
def continueCleared (n : Nat) : Host.Outcome State Fault Refusal → Host.Outcome State Fault Refusal
  | .next t    => outcomeIssuesCleared (runSteps n t)
  | .fault f   => .fault f
  | .refused r => .refused r

/-- Where runs of `n` steps do not depend on what is cleared, a run of one step more is decided by its cleared first step. -/
theorem outcomeIssuesCleared_runSteps_succ {n : Nat}
    (hn : ∀ t : State, outcomeIssuesCleared (runSteps n t.issuesCleared) = outcomeIssuesCleared (runSteps n t)) (s : State) :
    outcomeIssuesCleared (runSteps (n + 1) s) = continueCleared n (outcomeIssuesCleared (step s)) := by
  rw [runSteps_succ]
  cases step s with
  | next t => exact (hn t).symm
  | fault f => cases f; rfl
  | refused r => cases r <;> rfl

theorem outcomeIssuesCleared_runSteps (n : Nat) (s : State) :
    outcomeIssuesCleared (runSteps n s.issuesCleared) = outcomeIssuesCleared (runSteps n s) := by
  induction n generalizing s with
  | zero => simp
  | succ n ih =>
    rw [outcomeIssuesCleared_runSteps_succ ih, outcomeIssuesCleared_runSteps_succ ih, outcomeIssuesCleared_step]

/-- Runs whose first steps agree once cleared agree once cleared. -/
theorem outcomeIssuesCleared_runSteps_congr {s s' : State}
    (h : outcomeIssuesCleared (step s) = outcomeIssuesCleared (step s')) (n : Nat) :
    outcomeIssuesCleared (runSteps (n + 1) s) = outcomeIssuesCleared (runSteps (n + 1) s') := by
  rw [outcomeIssuesCleared_runSteps_succ (outcomeIssuesCleared_runSteps n), h,
    ← outcomeIssuesCleared_runSteps_succ (outcomeIssuesCleared_runSteps n)]

/-! ## Operands -/

/-- The low bits of a value are those of its truncation. -/
theorem lowBits_congr {w : Nat} {v v' : Word} (h : v.setWidth w = v'.setWidth w) : lowBits w v = lowBits w v' := by
  rw [lowBits, h, lowBits]

/-- Settles O21: the operands taken are the same, and the `Issue` events are once cleared. -/
theorem ignoredBitsChangeNothing : Obligations.IgnoredBitsChangeNothing := by
  intro s opa opb len opa' opb' len' hp
  refine ⟨fun ha hb => ?_, ?_, fun ha hb hl => ?_⟩
  · simp [exec, execCmp8, hp, byteOperand, ha, hb, Event.issueCleared]
  · simp [exec, execCmp64, hp, Event.issueCleared]
  · simp [exec, execCmpbuf, hp, baseOperand, lengthOperand, lowBits_congr ha, lowBits_congr hb, lowBits_congr hl,
      Event.issueCleared]

/-- The `Issue` steps of two presented commands that differ in ignored bits alone agree once cleared. -/
theorem issue_of_sameButIgnored {s : State} {c d : Command} (hp : s.phase = .idle)
    (h : Command.SameButIgnored s.params c d) :
    outcomeIssuesCleared (exec (decode (Command.onPorts s.params c)) s) =
      outcomeIssuesCleared (exec (decode (Command.onPorts s.params d)) s) := by
  obtain ⟨op, opa, opb, len⟩ := c
  obtain ⟨op', opa', opb', len'⟩ := d
  obtain ⟨rfl, hbyte, hword, hbuf⟩ := h
  obtain ⟨hcmp8, hcmp64, hcmpbuf⟩ :=
    ignoredBitsChangeNothing s opa opb (lowBits s.params.lenW len) opa' opb' (lowBits s.params.lenW len') hp
  rcases op_cases op with rfl | rfl | rfl | rfl
  · obtain ⟨ha, hb⟩ := hbyte rfl
    exact outcomeIssuesCleared_congr (hcmp8 ha hb)
  · obtain ⟨rfl, rfl⟩ := hword rfl
    exact outcomeIssuesCleared_congr hcmp64
  · obtain ⟨ha, hb, hl⟩ := hbuf rfl
    exact outcomeIssuesCleared_congr (hcmpbuf ha hb (congrArg (BitVec.setWidth _) (lowBits_congr hl)))
  · rfl

/-- Settles O55: the first steps issue the two commands and agree once cleared, and no later step reads what is cleared. -/
theorem runsIgnoreIgnoredBits : Obligations.RunsIgnoreIgnoredBits := by
  intro s c d rest n hp h
  have hissue (e : Command) : step (s.withHost (.present e :: rest)) =
      exec (decode (Command.onPorts s.params e)) (s.withHost rest) :=
    step_of_present (s := s.withHost (.present e :: rest)) hp rfl
  apply outcomeIssuesCleared_runSteps_congr
  rw [hissue, hissue]
  exact issue_of_sameButIgnored (s := s.withHost rest) hp h

end Sys2Proof.Machine

/-! PROOFS. The carry of a complement plus one, and from it the comparator `eq8` and its intermediates
(40_scalar_compare8.md R69, R70, R72). -/

namespace Sys2Proof.Machine

/-! ## The complement plus one, at every width -/

section
variable {n : Nat} (hn : 0 < n)
include hn

/-- The exact sum of a complement and 1 is the two's complement, before it wraps. -/
theorem addExact_not_one_toNat (d : BitVec n) : (addExact (~~~d) 1#n).toNat = 2 ^ n - d.toNat := by
  have hd := d.isLt
  rw [addExact_toNat, BitVec.toNat_not, BitVec.toNat_one hn]
  omega

/-- It carries exactly where there is no difference (43_common_laws.md R101). -/
theorem carryOut_addExact_not_one (d : BitVec n) : carryOut (addExact (~~~d) 1#n) = if d = 0#n then 1 else 0 := by
  have hp := Nat.two_pow_pos n
  have hle : 2 ^ n ≤ 2 ^ n - d.toNat ↔ d = 0#n := by
    rw [← BitVec.toNat_inj, BitVec.toNat_zero]
    omega
  simp only [carryOut_eq, addExact_not_one_toNat hn, hle]

end

/-! ## The 8-bit comparator -/

theorem cmpSum8_eq (b c : Byte) : cmpSum8 b c = addExact (~~~(b ^^^ c)) 1#8 := by
  rw [cmpSum8, cmpX8_eq]

theorem eq8_eq_ite (b c : Byte) : eq8 b c = if b = c then 1 else 0 := by
  simp only [eq8, cmpSum8_eq, carryOut_addExact_not_one (by decide : 0 < 8), BitVec.xor_eq_zero_iff]

theorem eq8_eq_one_iff {b c : Byte} : eq8 b c = 1 ↔ b = c := by
  simp [eq8_eq_ite]

theorem cmpX8_comm (b c : Byte) : cmpX8 b c = cmpX8 c b := by
  rw [cmpX8_eq, cmpX8_eq, BitVec.xor_comm]

theorem eq8_comm (b c : Byte) : eq8 b c = eq8 c b := by
  rw [eq8, cmpSum8, cmpX8_comm, ← cmpSum8, ← eq8]

/-- Settles O14, by the value of the comparator. -/
theorem byteComparatorDecidesEquality : Obligations.ByteComparatorDecidesEquality := by
  intro b c
  rw [eq8_eq_ite]
  exact ⟨fun h => if_pos h, fun h => if_neg h⟩

/-- Settles O16: `x` is the complement of the difference, `s` is one more, and it carries exactly where the difference is 0. -/
theorem byteIntermediatesFollowTheDifference : Obligations.ByteIntermediatesFollowTheDifference := by
  intro b c
  refine ⟨?_, ?_, ?_, ?_⟩
  · rw [show (0xFF#8) = BitVec.allOnes 8 from rfl, BitVec.xor_allOnes, BitVec.toNat_not]
  · rw [cmpX8_eq, BitVec.toNat_not]
  · rw [cmpSum8_eq]
    exact addExact_not_one_toNat (by decide) (b ^^^ c)
  · exact eq8_eq_one_iff.trans BitVec.xor_eq_zero_iff.symm

/-- Settles O17, each item from the value of the comparator; the order of the operands changes neither it nor `x`. -/
theorem byteComparatorListedProperties : Obligations.ByteComparatorListedProperties := by
  intro b
  refine ⟨eq8_self b, ⟨b, eq8_self b, fun c h => (eq8_eq_one_iff.mp h).symm⟩, fun c => ⟨eq8_comm b c, cmpX8_comm b c⟩,
    fun c => ?_⟩
  rw [eq8_eq_ite]
  split
  · exact .inr rfl
  · exact .inl rfl

end Sys2Proof.Machine

/-! PROOFS. The `Issue` step of `CMP8`, and what the `Issue` step of each command leaves unchanged. -/

namespace Sys2Proof.Machine

/-- A `CMP8` comparand as the bits 7:0 of its port (30_encoding.md R54). -/
theorem byteOperand_eq_extractLsb' (port : Word) : byteOperand port = port.extractLsb' 0 8 :=
  BitVec.setWidth_eq_extractLsb' (by decide)

theorem exec_cmp8_of_idle {s : State} (hp : s.phase = .idle) (opa opb len : Word) :
    exec (.cmp8 opa opb len) s =
      .next ((s.emit [.issue 0 opa opb len]).publish (eq8 (byteOperand opa) (byteOperand opb))) := by
  simp only [exec, execCmp8, hp]

/-- An `Issue` event and a result published after it, as one update of the state. -/
theorem State.publish_emit (s : State) (e : Event) (r : Bit) :
    (s.emit [e]).publish r = { s with res := r, rvalid := 1, history := s.history ++ [e, .complete r] } := by
  rw [State.publish, State.emit_history, List.append_assoc]
  rfl

/-- Settles O19: the carry of R68 is `eq8` of the two low bytes. -/
theorem compareByteCompletes : Obligations.CompareByteCompletes := by
  intro s opa opb len hp b c cy
  refine ⟨?_, rfl, eq8_eq_ite b c⟩
  rw [exec_cmp8_of_idle hp, byteOperand_eq_extractLsb', byteOperand_eq_extractLsb', State.publish_emit]
  rfl

/-- Settles O22, by what the `Issue` step of each instruction can do. -/
theorem issueStepFrame : Obligations.IssueStepFrame := by
  intro i s t h
  rcases exec_cases i s with ⟨opa, opb, len, -, he⟩ | ⟨-, he⟩ | ⟨-, opa, opb, len, rfl, he⟩ |
    ⟨-, opa, opb, len, rfl, he⟩ | ⟨-, opa, opb, len, rfl, he⟩ <;> rw [he] at h <;> cases h
  · refine ⟨rfl, rfl, rfl, fun _ => rfl, ?_⟩
    cases i with
    | cmp8 => exact ⟨rfl, rfl, rfl, rfl, rfl, rfl⟩
    | cmp64 => exact ⟨rfl, rfl, rfl, rfl, rfl, rfl⟩
    | cmpbuf => trivial
    | reserved => cases he
  · exact ⟨rfl, rfl, rfl, fun _ => rfl, rfl, rfl, rfl, rfl, rfl, rfl⟩
  · exact ⟨rfl, rfl, rfl, fun _ => rfl, rfl, rfl, rfl, rfl, rfl, rfl⟩
  · exact ⟨rfl, rfl, rfl, fun _ => rfl, trivial⟩

end Sys2Proof.Machine

/-! PROOFS. The comparator `eq64` and its intermediates (41_scalar_compare64.md R77), and the `Issue` step of `CMP64`. -/

namespace Sys2Proof.Machine

/-! ## The 64-bit comparator -/

theorem cmpSum64_eq (b c : Word) : cmpSum64 b c = addExact (~~~(b ^^^ c)) 1#64 := by
  rw [cmpSum64, cmpX64_eq]

theorem eq64_eq_ite (b c : Word) : eq64 b c = if b = c then 1 else 0 := by
  simp only [eq64, cmpSum64_eq, carryOut_addExact_not_one (by decide : 0 < 64), BitVec.xor_eq_zero_iff]

/-- Settles O15: the value of the comparator, and its intermediates as the complement of the difference and one more. -/
theorem wordComparatorDecidesEquality : Obligations.WordComparatorDecidesEquality := by
  intro b c
  refine ⟨fun h => ?_, fun h => ?_, ?_, ?_⟩
  · rw [eq64_eq_ite, if_pos h]
  · rw [eq64_eq_ite, if_neg h]
  · rw [cmpX64_eq, BitVec.toNat_not]
  · rw [cmpSum64_eq]
    exact addExact_not_one_toNat (by decide) (b ^^^ c)

/-! ## The `Issue` step of `CMP64` -/

theorem exec_cmp64_of_idle {s : State} (hp : s.phase = .idle) (opa opb len : Word) :
    exec (.cmp64 opa opb len) s = .next ((s.emit [.issue 1 opa opb len]).publish (eq64 opa opb)) := by
  simp only [exec, execCmp64, hp, wordOperand]

/-- Settles O20: the carry of R76 is `eq64` of the two ports. -/
theorem compareWordCompletes : Obligations.CompareWordCompletes := by
  intro s opa opb len hp cy
  refine ⟨?_, rfl, eq64_eq_ite opa opb⟩
  rw [exec_cmp64_of_idle hp, State.publish_emit]
  rfl

/-! ## Zero-extended bytes -/

/-- Zero-extension to a word loses nothing of a byte. -/
theorem setWidth_byte_inj {b c : Byte} : b.setWidth 64 = c.setWidth 64 ↔ b = c :=
  ⟨fun h => by simpa using congrArg (BitVec.setWidth 8) h, congrArg _⟩

/-- Settles O18: both comparators decide equality, and `0x15A` and `0x05A` differ as words and agree in their low bytes. -/
theorem wordComparatorExtendsTheByteComparator : Obligations.WordComparatorExtendsTheByteComparator := by
  refine ⟨fun b c => ?_, fun s len hp => ⟨_, _, exec_cmp64_of_idle hp _ _ len, ?_, exec_cmp8_of_idle hp _ _ len, ?_⟩⟩
  · simp only [eq64_eq_ite, eq8_eq_ite, setWidth_byte_inj]
  · rw [State.publish_res, eq64_eq_ite, if_neg (by decide)]
  · rw [State.publish_res, eq8_eq_ite, if_pos (by decide)]

end Sys2Proof.Machine

/-! PROOFS. The steps of `CMPBUF` one by one: the whole next state of `Issue`, of a `Chunk` step over a word or a tail byte,
and of `Complete` (42_buffer_compare.md R83, R86 to R89, R96). -/

namespace Sys2Proof.Machine

/-! ## Issue and Complete -/

theorem exec_cmpbuf_of_idle {s : State} (hp : s.phase = .idle) (opa opb len : Word) :
    exec (.cmpbuf opa opb len) s = .next ((s.emit [.issue 2 opa opb len]).startBuffer
      (baseOperand s.params opa) (baseOperand s.params opb) (lengthOperand s.params len)) := by
  simp only [exec, execCmpbuf, hp]

/-- Settles O24: the operands are the low bits of their ports. -/
theorem compareBufferIssues : Obligations.CompareBufferIssues := by
  intro s opa opb len hp
  exact ⟨exec_cmpbuf_of_idle hp opa opb len, rfl⟩

/-- With a host that does nothing more, or waits, a running block takes its own step and the host's list stays. -/
theorem step_of_hostQuiet {s : State} (hp : s.phase = .run) (q : HostQuiet s.host = true) : step s = blockStep s := by
  obtain ⟨hquiet, hleft⟩ := HostQuietFor_of_quiet q 1
  rw [step_of_hostQuietFor hp hquiet, hleft]
  rfl

/-- Settles O28, by the block's own step at `K = NCH`. -/
theorem completePublishesTheAccumulator : Obligations.CompletePublishesTheAccumulator := by
  intro s hp q hk
  rw [step_of_hostQuiet hp q, blockStep_of_eq hp hk]
  rfl

/-- Settles O49: the invariant says what `RVALID` and `RES` hold in `RUN`, and no port reads `ACC`. -/
theorem runningCommandShowsNothing : Obligations.RunningCommandShowsNothing := by
  intro s hinv hp
  obtain ⟨-, -, -, -, -, hrun⟩ := hinv
  obtain ⟨-, hrvalid, hres⟩ := hrun hp
  refine ⟨⟨?_, hrvalid, hres⟩, fun acc => ⟨rfl, rfl, rfl⟩⟩
  rw [State.busyPort, hp]

/-! ## The values a chunk reads and its bit -/

/-- The byte at `addr + j` stands in lane `j` of the value read there (20_memory.md R34). -/
theorem State.ReadableAt.read_eq_lane {s : State} {addr : Nat} {size : ReadSize} (h : s.ReadableAt addr size.bytes)
    {j : Nat} (hj : j < size.bytes) :
    s.mem.read (addr + j) = some ((s.mem.valueAt addr size).extractLsb' (8 * j) 8) :=
  Memory.readLE_lane (memRead_some h.memRead_eq).2 size.bytes_le_eight hj

/-- A byte read is zero-extended (log 22). -/
theorem Memory.valueAt_one {m : Memory} {addr : Nat} {v : Byte} (h : m.read addr = some v) :
    m.valueAt addr .one = v.setWidth 64 := by
  simp [Memory.valueAt, ReadSize.bytes, Memory.readLE, h]

theorem chunkBit_one_setWidth (va vb : Byte) : chunkBit .one (va.setWidth 64) (vb.setWidth 64) = eq8 va vb := by
  simp [chunkBit]

theorem eq64_eq_one_iff {b c : Word} : eq64 b c = 1 ↔ b = c := by
  simp [eq64_eq_ite]

/-- The bit of a chunk is 1 exactly when its bytes agree pairwise (42_buffer_compare.md R86, R87). -/
theorem chunkBit_eq_one_iff {p : Params} {m : Memory} {a b : Nat} {size : ReadSize} {va vb : Word}
    (ha : memRead p m a size = some va) (hb : memRead p m b size = some vb) :
    chunkBit size va vb = 1 ↔ ∀ j < size.bytes, m.read (a + j) = m.read (b + j) := by
  have hva := (memRead_some ha).2
  have hvb := (memRead_some hb).2
  cases size with
  | eight => exact eq64_eq_one_iff.trans (Memory.readLE_eq_iff hva hvb (by decide))
  | one =>
    have hlane {addr : Nat} {v : Word} (h : m.readLE 1 addr = some v) : m.read addr = some (v.setWidth 8) :=
      (Memory.readLE_lane h (by decide) Nat.one_pos).trans
        (congrArg some (BitVec.setWidth_eq_extractLsb' (by decide)).symm)
    refine eq8_eq_one_iff.trans ?_
    simp [ReadSize.bytes, hlane hva, hlane hvb]

/-! ## The `Chunk` step -/

/-- The whole next state of a `Chunk` step over readable bytes, `K + 1` not wrapping (42_buffer_compare.md R85). -/
theorem step_of_readable_chunk {s : State} (hlen : s.len.toNat < 2 ^ s.params.lenW) (hp : s.phase = .run)
    (q : HostQuiet s.host = true) (hk : s.k.toNat < numChunks s.len.toNat) {addrA addrB : Nat} {size : ReadSize}
    (hsize : s.chunkWidth = size) (haddrA : s.chunkAddr s.baseA = addrA) (haddrB : s.chunkAddr s.baseB = addrB)
    (hA : s.ReadableAt addrA size.bytes) (hB : s.ReadableAt addrB size.bytes) :
    step s = .next { s with
      acc     := s.acc &&& chunkBit size (s.mem.valueAt addrA size) (s.mem.valueAt addrB size)
      k       := BitVec.ofNat 64 (s.k.toNat + 1)
      history := s.history ++
        [.read addrA size (s.mem.valueAt addrA size), .read addrB size (s.mem.valueAt addrB size)] } := by
  subst hsize haddrA haddrB
  have hk' : lowBits s.params.lenW (s.k + 1) = BitVec.ofNat 64 (s.k.toNat + 1) := by
    rw [← State.chunkNext_k_toNat hlen hk 0 0, BitVec.ofNat_toNat, BitVec.setWidth_eq]
    rfl
  rw [step_of_hostQuiet hp q, blockStep_of_lt hp hk, chunkStep_eq_next hA.memRead_eq hB.memRead_eq, ← hk',
    State.chunkNext, State.accumulate, State.emit_history, State.emit_history, List.append_assoc]
  rfl

/-- Settles O25: the two words are those the memory gives, their lanes its bytes. -/
theorem wordChunkComparesEightBytes : Obligations.WordChunkComparesEightBytes := by
  intro s hinv hp q hk addrA addrB hA hB
  obtain ⟨-, -, ⟨hlen, -⟩, -⟩ := hinv
  have hlt : s.k.toNat < numChunks s.len.toNat := Nat.lt_add_right _ hk
  have hoff : chunkOffset s.len.toNat s.k.toNat = 8 * s.k.toNat := if_pos hk
  have hsize : s.chunkWidth = .eight := if_pos hk
  have hA' : s.ReadableAt addrA ReadSize.eight.bytes := hA
  have hB' : s.ReadableAt addrB ReadSize.eight.bytes := hB
  refine ⟨s.mem.valueAt addrA .eight, s.mem.valueAt addrB .eight,
    fun j hj => ⟨hA'.read_eq_lane hj, hB'.read_eq_lane hj⟩, chunkBit_eq_one_iff hA'.memRead_eq hB'.memRead_eq, ?_⟩
  exact step_of_readable_chunk hlen hp q hlt hsize (congrArg (s.baseA.toNat + ·) hoff)
    (congrArg (s.baseB.toNat + ·) hoff) hA' hB'

/-- Settles O26: the two bytes are the memory's, and the values read are their zero-extensions. -/
theorem tailChunkComparesOneByte : Obligations.TailChunkComparesOneByte := by
  intro s hinv hp q hk hlt off hA hB
  obtain ⟨-, -, ⟨hlen, -⟩, -⟩ := hinv
  have hoff : chunkOffset s.len.toNat s.k.toNat = off := if_neg (Nat.not_lt.mpr hk)
  have hsize : s.chunkWidth = .one := if_neg (Nat.not_lt.mpr hk)
  obtain ⟨va, hva⟩ := Option.isSome_iff_exists.mp (hA.2 0 Nat.one_pos)
  obtain ⟨vb, hvb⟩ := Option.isSome_iff_exists.mp (hB.2 0 Nat.one_pos)
  have hvalA : s.mem.valueAt (s.baseA.toNat + off) .one = va.setWidth 64 := Memory.valueAt_one hva
  have hvalB : s.mem.valueAt (s.baseB.toNat + off) .one = vb.setWidth 64 := Memory.valueAt_one hvb
  refine ⟨va, vb, hva, hvb, eq8_eq_one_iff, ?_⟩
  rw [step_of_readable_chunk hlen hp q hlt hsize (congrArg (s.baseA.toNat + ·) hoff)
    (congrArg (s.baseB.toNat + ·) hoff) hA hB, hvalA, hvalB, chunkBit_one_setWidth]

/-! ## Eager accumulation -/

/-- The state with its `ACC` replaced. -/
def State.withAcc (s : State) (acc : Bit) : State := { s with acc := acc }

/-- The `Chunk` step reads `ACC` in the one AND that writes it: every other part of its outcome is that of `ACC = 1`. -/
theorem chunkStep_withAcc (s : State) (acc : Bit) :
    chunkStep (s.withAcc acc) = mapNext (fun t => t.withAcc (acc &&& t.acc)) (chunkStep (s.withAcc 1)) := by
  cases ha : memRead s.params s.mem (s.chunkAddr s.baseA) s.chunkWidth with
  | none => simp only [chunkStep, State.withAcc, ha]; rfl
  | some va =>
    cases hb : memRead s.params s.mem (s.chunkAddr s.baseB) s.chunkWidth with
    | none => simp only [chunkStep, State.withAcc, State.emit, ha, hb]; rfl
    | some vb =>
      have hand : acc &&& (1 &&& chunkBit s.chunkWidth va vb) = acc &&& chunkBit s.chunkWidth va vb := by
        rw [show (1 : Bit) = BitVec.allOnes 1 from rfl, BitVec.allOnes_and]
      rw [chunkStep_eq_next (s := s.withAcc acc) ha hb, chunkStep_eq_next (s := s.withAcc 1) ha hb, mapNext_next]
      show _ = Host.Outcome.next (State.withAcc _ (acc &&& (1 &&& chunkBit s.chunkWidth va vb)))
      rw [hand]
      rfl

/-- Settles O27: `ACC` is read in one AND alone, which with 0 gives 0. -/
theorem accumulationIsEager : Obligations.AccumulationIsEager := by
  intro s hp q hk
  have hstep (acc : Bit) : step (s.withAcc acc) = chunkStep (s.withAcc acc) :=
    (step_of_hostQuiet (s := s.withAcc acc) hp q).trans (blockStep_of_lt (s := s.withAcc acc) hp hk)
  refine ⟨fun acc => ?_, fun t hacc e => ?_⟩
  · exact (hstep acc).trans ((chunkStep_withAcc s acc).trans (congrArg _ (hstep 1).symm))
  · rw [step_of_hostQuiet hp q, blockStep_of_lt hp hk] at e
    rcases chunkStep_cases s with ⟨-, hc⟩ | ⟨va, -, -, hc⟩ | ⟨va, vb, -, -, hc⟩ <;> rw [hc] at e <;> cases e
    rw [State.accumulate_acc, State.emit_acc, State.emit_acc, hacc]
    exact BitVec.zero_and

end Sys2Proof.Machine

/-! PROOFS. While a command runs, `ACC` says whether the bytes worked so far agree, and so its result says whether the buffers
do (10_state.md R23, 42_buffer_compare.md R90, R92, R94, R98). -/

namespace Sys2Proof.Machine

/-! ## The bytes worked so far -/

@[simp] theorem chunkOffset_zero (len : Nat) : chunkOffset len 0 = 0 := by
  simp only [chunkOffset]
  split <;> omega

/-- The chunks follow one another without a gap (10_state.md R23). -/
theorem chunkOffset_succ {len k : Nat} (hk : k < numChunks len) :
    chunkOffset len (k + 1) = chunkOffset len k + (chunkSize len k).bytes := by
  have hnext : chunkOffset len (k + 1) = if k + 1 < len / 8 then 8 * (k + 1) else 8 * (len / 8) + (k + 1 - len / 8) := rfl
  rw [hnext]
  rcases chunk_cases hk with ⟨hw, ho, hs⟩ | ⟨hw, -, ho, hs⟩ <;> rw [ho, hs] <;> simp only [ReadSize.bytes] <;>
    split <;> omega

/-- After the last chunk every byte is worked. -/
theorem chunkOffset_numChunks (len : Nat) : chunkOffset len (numChunks len) = len := by
  rw [chunkOffset, if_neg (by rw [numChunks]; omega)]
  simp only [numChunks, numWords, numTail]
  omega

/-- What holds below `n + d` holds below `n` and of the `d` numbers from `n` on. -/
theorem forall_lt_add_iff {P : Nat → Prop} (n d : Nat) :
    (∀ i < n + d, P i) ↔ (∀ i < n, P i) ∧ ∀ j < d, P (n + j) := by
  refine ⟨fun h => ⟨fun i hi => h i (Nat.lt_add_right d hi), fun j hj => h (n + j) (Nat.add_lt_add_left hj n)⟩, ?_⟩
  rintro ⟨hlow, hhigh⟩ i hi
  rcases Nat.lt_or_ge i n with hlt | hge
  · exact hlow i hlt
  · rw [← Nat.add_sub_cancel' hge]
    exact hhigh (i - n) (by omega)

/-- The AND of two bits is 1 exactly when both are. -/
theorem bit_and_eq_one_iff (x y : Bit) : x &&& y = 1 ↔ x = 1 ∧ y = 1 := by
  revert x y
  decide

theorem bit_eq_zero_of_ne_one {x : Bit} (h : x ≠ 1) : x = 0 := by
  revert x
  decide

/-! ## Every step keeps it -/

/-- The memory `m` gives both buffers of the command the bytes they have (20_memory.md R41). -/
abbrev State.BuffersAsIn (s : State) (m : Memory) : Prop :=
  ∀ i < s.len.toNat, s.mem.read (s.baseA.toNat + i) = m.read (s.baseA.toNat + i) ∧
    s.mem.read (s.baseB.toNat + i) = m.read (s.baseB.toNat + i)

/-- At `Issue` no byte is worked and `ACC` is 1. -/
theorem State.comparedSoFar_startBuffer (s : State) (m : Memory) (a b len : Word) :
    (s.startBuffer a b len).ComparedSoFar m := by
  intro _
  simp

/-- A `Chunk` step works the bytes from `off(K)` up to `off(K + 1)`, and its bit says whether they agree. -/
theorem State.ComparedSoFar.chunkNext {s : State} {m : Memory} (hs : s.ComparedSoFar m)
    (hlen : s.len.toNat < 2 ^ s.params.lenW) (hp : s.phase = .run) (hk : s.k.toNat < numChunks s.len.toNat)
    (hm : s.BuffersAsIn m) {va vb : Word}
    (ha : memRead s.params s.mem (s.chunkAddr s.baseA) s.chunkWidth = some va)
    (hb : memRead s.params s.mem (s.chunkAddr s.baseB) s.chunkWidth = some vb) :
    (s.chunkNext va vb).ComparedSoFar m := by
  intro _
  have hend := chunk_end_le hk
  have hbit : chunkBit s.chunkWidth va vb = 1 ↔ ∀ j < s.chunkWidth.bytes,
      m.read (s.baseA.toNat + (chunkOffset s.len.toNat s.k.toNat + j)) =
        m.read (s.baseB.toNat + (chunkOffset s.len.toNat s.k.toNat + j)) := by
    refine (chunkBit_eq_one_iff ha hb).trans (forall₂_congr fun j hj => ?_)
    obtain ⟨hA, hB⟩ := hm (chunkOffset s.len.toNat s.k.toNat + j)
      (Nat.lt_of_lt_of_le (Nat.add_lt_add_left hj _) hend)
    rw [Nat.add_assoc, Nat.add_assoc, hA, hB]
  rw [State.chunkNext_k_toNat hlen hk]
  show s.acc &&& chunkBit s.chunkWidth va vb = 1 ↔ ∀ i < chunkOffset s.len.toNat (s.k.toNat + 1), _
  rw [bit_and_eq_one_iff, hs hp, hbit, chunkOffset_succ hk, forall_lt_add_iff]
  rfl

/-- After the last chunk `ACC` says whether the buffers agree. -/
theorem State.ComparedSoFar.acc_eq_one_iff {s : State} {m : Memory} (hs : s.ComparedSoFar m) (hp : s.phase = .run)
    (hk : s.k.toNat = numChunks s.len.toNat) :
    s.acc = 1 ↔ ∀ i < s.len.toNat, m.read (s.baseA.toNat + i) = m.read (s.baseB.toNat + i) := by
  rw [hs hp, hk, chunkOffset_numChunks]

/-- Settles O54: the bytes worked so far are none at `Issue`, a chunk more after a `Chunk` step, and all at `Complete`; no
other step of a running command writes its registers. -/
theorem unchangedBuffersDecideTheResult : Obligations.UnchangedBuffersDecideTheResult := by
  refine ⟨fun s t opa opb len m hp e => ?_, fun s t m hinv hp hs hm e => ?_⟩
  · rw [exec_cmpbuf_of_idle hp] at e
    cases e
    exact State.comparedSoFar_startBuffer _ m _ _ _
  · obtain ⟨-, -, ⟨hlen, -⟩, -⟩ := hinv
    have hbusy {t : State} (ht : t.phase = s.phase) {P : Prop} : HostResets s.host = false → t.phase = .idle → P := by
      intro _ hidle
      rw [ht, hp] at hidle
      cases hidle
    cases State.stepsTo_of_step e with
    | reset rest hh => exact ⟨nofun, fun hr => by rw [hh] at hr; cases hr⟩
    | store => exact ⟨hs, hbusy rfl⟩
    | release => exact ⟨hs, hbusy rfl⟩
    | wait => exact ⟨hs, hbusy rfl⟩
    | chunk h va vb _ _ hk ha hb =>
      exact ⟨State.ComparedSoFar.chunkNext (s := s.withHost h) hs hlen hp hk hm ha hb, hbusy rfl⟩
    | complete h _ _ hk => exact ⟨nofun, fun _ _ => ⟨rfl, hs.acc_eq_one_iff hp hk⟩⟩
    | cmp8 c rest hidle => exact absurd (hp.symm.trans hidle) nofun
    | cmp64 c rest hidle => exact absurd (hp.symm.trans hidle) nofun
    | cmpbuf c rest hidle => exact absurd (hp.symm.trans hidle) nofun

/-! ## A whole command over readable buffers -/

section
variable {s : State}

/-- The same of the states of a command over a memory that does not change. -/
theorem State.comparedSoFar_afterChunks (hp : s.phase = .run) (hk : s.k = 0) (hacc : s.acc = 1)
    (hlen : s.len.toNat < 2 ^ s.params.lenW)
    (hA : s.BufferReadable s.baseA.toNat s.len.toNat) (hB : s.BufferReadable s.baseB.toNat s.len.toNat)
    {m : Nat} (hm : m ≤ numChunks s.len.toNat) : (s.afterChunks m).ComparedSoFar s.mem := by
  induction m with
  | zero =>
    rw [State.afterChunks_zero hk hacc]
    intro _
    simp [hk, hacc]
  | succ m ih =>
    have hkm : (s.afterChunks m).k.toNat = m := State.afterChunks_k_toNat (Nat.le_of_succ_le hm)
    have hreadA := (hA.chunk hm).memRead_eq
    have hreadB := (hB.chunk hm).memRead_eq
    rw [← hkm] at hreadA hreadB
    have hnext := State.ComparedSoFar.chunkNext (ih (Nat.le_of_succ_le hm)) hlen hp (by rwa [hkm])
      (fun _ _ => ⟨rfl, rfl⟩) hreadA hreadB
    rw [hkm, State.chunkNext_afterChunks hlen hm rfl] at hnext
    exact hnext

/-- The result of the command says whether the buffers agree (42_buffer_compare.md R90). -/
theorem State.afterComplete_res_eq_one_iff (hp : s.phase = .run) (hk : s.k = 0) (hacc : s.acc = 1)
    (hlen : s.len.toNat < 2 ^ s.params.lenW)
    (hA : s.BufferReadable s.baseA.toNat s.len.toNat) (hB : s.BufferReadable s.baseB.toNat s.len.toNat) :
    s.afterComplete.res = 1 ↔ s.BuffersAgree s.baseA.toNat s.baseB.toNat s.len.toNat :=
  (State.comparedSoFar_afterChunks hp hk hacc hlen hA hB (Nat.le_refl _)).acc_eq_one_iff hp
    (State.afterChunks_k_toNat (Nat.le_refl _))

/-- The whole state after the command, `r` being its result. -/
theorem State.afterComplete_eq {r : Bit} (hr : s.afterComplete.res = r) :
    s.afterComplete = { s with
      phase := .idle, k := BitVec.ofNat 64 (numChunks s.len.toNat), acc := r, res := r, rvalid := 1
      host := hostAfter (numChunks s.len.toNat + 1) s.host
      history := s.history ++ (s.mem.bufferReads s.baseA.toNat s.baseB.toNat s.len.toNat ++ [.complete r]) } := by
  subst hr
  rw [← List.append_assoc]
  rfl

end

theorem State.bufferIssued_history (s : State) (c : Command) (rest : List HostInput) :
    (s.bufferIssued c rest).history = s.history ++ [.issue 2 c.opa c.opb (lowBits s.params.lenW c.len)] := rfl

/-- Settles O31: the closed form of the run, its result by what `ACC` says after the last chunk. -/
theorem bufferCompareComputesEquality : Obligations.BufferCompareComputesEquality := by
  intro s c rest hp hh hop q a b l hA hB
  have hiff : (s.bufferIssued c rest).afterComplete.res = 1 ↔ s.BuffersAgree a.toNat b.toNat l.toNat :=
    State.afterComplete_res_eq_one_iff (s := s.bufferIssued c rest) rfl rfl rfl (lowBits_lt _ _) hA hB
  refine ⟨_, hiff.mpr, fun h => bit_eq_zero_of_ne_one (mt hiff.mp h), ?_⟩
  refine (runSteps_cmpbuf hp hh hop hA hB q).trans (congrArg Host.Outcome.next ?_)
  rw [List.append_cons, ← State.bufferIssued_history s c rest]
  exact State.afterComplete_eq (s := s.bufferIssued c rest) rfl

/-- Two reads are made for each chunk. -/
theorem length_chunkReads (a b len k : Nat) (ps : List (Word × Word)) :
    (chunkReads a b len k ps).length = 2 * ps.length := by
  induction ps generalizing k with
  | nil => rfl
  | cons p ps ih =>
    simp only [chunkReads, List.length_cons, ih]
    omega

/-- Settles O32, by the state after `m` chunks. -/
theorem bufferCompareTakesNoFewerSteps : Obligations.BufferCompareTakesNoFewerSteps := by
  intro s c rest m hp hh hop q a b l hA hB hm
  refine ⟨_, runSteps_cmpbuf_chunks hp hh hop hA hB hm q, rfl, State.afterChunks_k_toNat hm, rfl, rfl, ?_⟩
  rw [State.afterChunks_history, List.length_append, length_chunkReads, State.length_chunkPairs]
  exact congrArg (· + 2 * m) List.length_append

/-- A command of length 0 works no chunk: its result is the empty AND (42_buffer_compare.md R94). -/
theorem State.afterComplete_of_len_eq_zero {s : State} (hl : s.len = 0) :
    s.afterComplete.acc = 1 ∧ s.afterComplete.history = s.history ++ [.complete 1] := by
  have hpairs : s.chunkPairs (numChunks s.len.toNat) = [] := by
    rw [hl]
    rfl
  have hacc : s.afterComplete.acc = 1 := by
    show chunkBits s.len.toNat 0 (s.chunkPairs (numChunks s.len.toNat)) = 1
    rw [hpairs, chunkBits]
  refine ⟨hacc, ?_⟩
  show s.history ++ chunkReads _ _ _ 0 (s.chunkPairs (numChunks s.len.toNat)) ++ [.complete s.afterComplete.acc] = _
  rw [hpairs, chunkReads, List.append_nil, hacc]

/-- Settles O33: no chunk is worked, so the result is the empty AND. -/
theorem zeroLengthBuffersAreEqual : Obligations.ZeroLengthBuffersAreEqual := by
  intro s c rest hp hh hop q hl
  have hlow : lowBits s.params.lenW c.len = 0 := hl
  have hread (base : Nat) : s.BufferReadable base (lengthOperand s.params c.len).toNat := by
    rw [hl]
    exact fun i hi => absurd hi (Nat.not_lt_zero i)
  have hrun := runSteps_cmpbuf hp hh hop (hread _) (hread _) (by rw [hl]; exact q)
  rw [hl] at hrun
  obtain ⟨hacc, hhist⟩ := State.afterComplete_of_len_eq_zero (s := s.bufferIssued c rest) hl
  refine ⟨_, hrun, rfl, rfl, hacc, hacc, hhist.trans ?_⟩
  rw [State.bufferIssued_history, hlow, List.append_assoc]
  rfl

end Sys2Proof.Machine

/-! PROOFS. A command reads the first `length` bytes of its buffers alone (42_buffer_compare.md R95). -/

namespace Sys2Proof.Machine

/-- The state with its memory replaced. -/
def State.withMem (s : State) (m : Memory) : State := { s with mem := m }

/-- The host does nothing more, and while a command runs the memory `m` gives both its buffers the bytes they have. -/
abbrev State.AloneWithBuffersAsIn (s : State) (m : Memory) : Prop :=
  s.host = [] ∧ (s.phase = .run → s.BuffersAsIn m)

/-- A read depends on the bytes it touches alone. -/
theorem memRead_congr {p : Params} {m m' : Memory} {addr : Nat} {size : ReadSize}
    (h : ∀ j < size.bytes, m.read (addr + j) = m'.read (addr + j)) : memRead p m addr size = memRead p m' addr size := by
  rw [memRead, memRead, Memory.readLE_congr h]

section
variable {s : State} {m : Memory}

/-- A chunk ends within the buffers, so neither read leaves them. -/
theorem chunkStep_withMem (hk : s.k.toNat < numChunks s.len.toNat) (hm : s.BuffersAsIn m) :
    chunkStep (s.withMem m) = mapNext (fun t => t.withMem m) (chunkStep s) := by
  have hend := chunk_end_le hk
  have hin {j : Nat} (hj : j < s.chunkWidth.bytes) : chunkOffset s.len.toNat s.k.toNat + j < s.len.toNat :=
    Nat.lt_of_lt_of_le (Nat.add_lt_add_left hj _) hend
  have hA : memRead s.params m (s.chunkAddr s.baseA) s.chunkWidth =
      memRead s.params s.mem (s.chunkAddr s.baseA) s.chunkWidth :=
    memRead_congr fun j hj => by rw [Nat.add_assoc, (hm _ (hin hj)).1]
  have hB : memRead s.params m (s.chunkAddr s.baseB) s.chunkWidth =
      memRead s.params s.mem (s.chunkAddr s.baseB) s.chunkWidth :=
    memRead_congr fun j hj => by rw [Nat.add_assoc, (hm _ (hin hj)).2]
  cases ha : memRead s.params s.mem (s.chunkAddr s.baseA) s.chunkWidth with
  | none => simp only [chunkStep, State.withMem, hA, ha]; rfl
  | some va =>
    cases hb : memRead s.params s.mem (s.chunkAddr s.baseB) s.chunkWidth with
    | none => simp only [chunkStep, State.withMem, State.emit, hA, ha, hB, hb]; rfl
    | some vb => simp only [chunkStep, State.withMem, State.emit, hA, ha, hB, hb]; rfl

theorem step_withMem (h : s.AloneWithBuffersAsIn m) :
    step (s.withMem m) = mapNext (fun t => t.withMem m) (step s) := by
  obtain ⟨hhost, hm⟩ := h
  rw [step_of_nil hhost, step_of_nil (s := s.withMem m) hhost]
  rcases blockStep_cases s with ⟨hp, hb⟩ | ⟨hp, hk, hb⟩ | ⟨hp, hk, hb⟩ | ⟨hp, hk, hb⟩ <;> rw [hb]
  · exact blockStep_of_idle (s := s.withMem m) hp
  · exact (blockStep_of_lt (s := s.withMem m) hp hk).trans (chunkStep_withMem hk (hm hp))
  · exact blockStep_of_eq (s := s.withMem m) hp hk
  · exact blockStep_of_gt (s := s.withMem m) hp hk

/-- No step of the block's own writes the latches or the memory. -/
theorem State.AloneWithBuffersAsIn.step {t : State} (h : s.AloneWithBuffersAsIn m) (e : step s = .next t) :
    t.AloneWithBuffersAsIn m := by
  obtain ⟨hhost, hm⟩ := h
  rw [step_of_nil hhost] at e
  rcases blockStep_cases s with ⟨-, hb⟩ | ⟨hp, -, hb⟩ | ⟨-, -, hb⟩ | ⟨-, -, hb⟩ <;> rw [hb] at e
  · cases e
    exact ⟨hhost, hm⟩
  · rcases chunkStep_cases s with ⟨-, hc⟩ | ⟨va, -, -, hc⟩ | ⟨va, vb, -, -, hc⟩ <;> rw [hc] at e <;> cases e
    exact ⟨hhost, fun _ => hm hp⟩
  · cases e
    exact ⟨hhost, nofun⟩
  · cases e
    exact ⟨hhost, hm⟩

end

theorem runSteps_withMem {s : State} {m : Memory} (h : s.AloneWithBuffersAsIn m) (n : Nat) :
    runSteps n (s.withMem m) = mapNext (fun t => t.withMem m) (runSteps n s) := by
  induction n generalizing s with
  | zero => rfl
  | succ n ih =>
    rw [runSteps_succ, runSteps_succ, step_withMem h]
    cases e : step s with
    | next t => exact ih (h.step e)
    | fault f => rfl
    | refused r => rfl

/-- Settles O34: `Issue` reads no byte, and every step after it reads bytes below `length` alone. -/
theorem onlyTheFirstLengthBytesMatter : Obligations.OnlyTheFirstLengthBytesMatter := by
  intro s c m n hp hh hop hm
  have hissued : (s.bufferIssued c []).AloneWithBuffersAsIn m :=
    ⟨rfl, fun _ i hi => ⟨(hm i hi).1.symm, (hm i hi).2.symm⟩⟩
  cases n with
  | zero => rfl
  | succ n =>
    rw [runSteps_succ_next (step_eq_bufferIssued hp hh hop),
      runSteps_succ_next (step_eq_bufferIssued (s := { s with mem := m }) hp hh hop)]
    exact runSteps_withMem hissued n

end Sys2Proof.Machine

/-! PROOFS. The arithmetic of the block (43_common_laws.md R101, R102): the carry of `x + 1`, and that no counter or address
wraps under the caller's precondition. -/

namespace Sys2Proof.Machine

/-! ## The carry of `x + 1`, at every width -/

section
variable {n : Nat} (hn : 0 < n) (x : BitVec n)
include hn

theorem addExact_one_toNat : (addExact x 1#n).toNat = x.toNat + 1 := by
  rw [addExact_toNat, BitVec.toNat_one hn]

/-- It carries exactly where the sum reaches `2^N`. -/
theorem carryOut_addExact_one : carryOut (addExact x 1#n) = if x.toNat = 2 ^ n - 1 then 1 else 0 := by
  have hx := x.isLt
  have hcarry : 2 ^ n ≤ x.toNat + 1 ↔ x.toNat = 2 ^ n - 1 := by omega
  simp only [carryOut_eq, addExact_one_toNat hn, hcarry]

/-- Its low bits are the sum modulo `2^N`. -/
theorem setWidth_addExact_one_toNat : ((addExact x 1#n).setWidth n).toNat = (x.toNat + 1) % 2 ^ n := by
  rw [BitVec.toNat_setWidth, addExact_one_toNat hn]

/-- R101 at any width. -/
theorem carryLaw :
    (carryOut (addExact x 1#n) = 1 ↔ x.toNat = 2 ^ n - 1) ∧
    (x.toNat = 2 ^ n - 1 → (addExact x 1#n).setWidth n = 0#n) ∧
    (x.toNat ≠ 2 ^ n - 1 → carryOut (addExact x 1#n) = 0 ∧ ((addExact x 1#n).setWidth n).toNat = x.toNat + 1) := by
  have hx := x.isLt
  have hcarry := carryOut_addExact_one hn x
  have hlow := setWidth_addExact_one_toNat hn x
  refine ⟨?_, fun hall => ?_, fun hne => ⟨by rw [hcarry, if_neg hne], ?_⟩⟩
  · rw [hcarry]
    split <;> simp [*]
  · apply BitVec.eq_of_toNat_eq
    rw [hlow, hall, Nat.sub_add_cancel (Nat.two_pow_pos n), Nat.mod_self, BitVec.toNat_zero]
  · rw [hlow, Nat.mod_eq_of_lt (by omega)]

end

/-- Settles O13: the carry law at the widths 8 and 64. -/
theorem carryOutExactlyOfAllOnes : Obligations.CarryOutExactlyOfAllOnes :=
  ⟨carryLaw (by decide), carryLaw (by decide)⟩

/-! ## Counters and addresses -/

/-- Settles O41: `K + 1 ≤ NCH ≤ LEN`, and a chunk lies inside its buffer. -/
theorem noCounterOrAddressWraps : Obligations.NoCounterOrAddressWraps := by
  intro s base hlen hk hread
  exact ⟨hk, numChunks_le _, State.chunkNext_k_toNat hlen hk 0 0, hread.chunk hk⟩

end Sys2Proof.Machine

/-! PROOFS. Secrets stay secret (43_common_laws.md R103 to R105): no step reads what `State.erased` erases but to write what it
erases, so states that differ in secrets alone step and run alike. -/

namespace Sys2Proof.Machine

/-! ## Erasing commands, events, host inputs and memory -/

@[simp] theorem Command.erased_op (c : Command) : (Command.erased c).op = c.op := by
  unfold Command.erased
  split <;> rfl

theorem Command.erased_of_op_eq_two {c : Command} (h : c.op = 2) : Command.erased c = c := if_pos h

theorem Command.erased_of_op_ne_two {c : Command} (h : c.op ≠ 2) : Command.erased c = { c with opa := 0, opb := 0 } :=
  if_neg h

@[simp] theorem Command.erased_erased (c : Command) : Command.erased (Command.erased c) = Command.erased c := by
  by_cases h : c.op = 2
  · rw [Command.erased_of_op_eq_two h, Command.erased_of_op_eq_two h]
  · rw [Command.erased_of_op_ne_two (by rwa [Command.erased_op]), Command.erased_of_op_ne_two h]

@[simp] theorem Event.erased_erased (e : Event) : e.erased.erased = e.erased := by
  cases e with
  | issue op opa opb len => by_cases h : op = 2 <;> simp only [Event.erased, h, if_true, if_false]
  | read addr size value => rfl
  | complete r => rfl
  | reset => rfl

@[simp] theorem HostInput.erased_erased (x : HostInput) : x.erased.erased = x.erased := by
  cases x with
  | present c => exact congrArg HostInput.present (Command.erased_erased c)
  | reset => rfl
  | pass => rfl
  | store addr v => rfl
  | release addr => rfl

@[simp] theorem Event.erased_comp_erased : Event.erased ∘ Event.erased = Event.erased :=
  funext Event.erased_erased

@[simp] theorem HostInput.erased_comp_erased : HostInput.erased ∘ HostInput.erased = HostInput.erased :=
  funext HostInput.erased_erased

theorem Memory.erased_cons (x : Nat) (v : Byte) (m : Memory) :
    Memory.erased ((x, v) :: m) = (x, 0) :: Memory.erased m := rfl

@[simp] theorem Memory.erased_erased (m : Memory) : m.erased.erased = m.erased := by
  simp [Memory.erased]

@[simp] theorem Memory.erased_write (m : Memory) (x : Nat) (v : Byte) : (m.write x v).erased = m.erased.write x 0 := by
  induction m with
  | nil => rfl
  | cons c m ih =>
    obtain ⟨a, w⟩ := c
    simp only [Memory.write, Memory.erased_cons]
    split
    · rfl
    · split
      · rfl
      · rw [Memory.erased_cons, ih]

@[simp] theorem Memory.erased_writeWithin (m : Memory) (space x : Nat) (v : Byte) :
    (m.writeWithin space x v).erased = m.erased.writeWithin space x 0 := by
  unfold Memory.writeWithin
  split
  · exact Memory.erased_write m x v
  · rfl

@[simp] theorem Memory.erased_erase (m : Memory) (x : Nat) : (m.erase x).erased = m.erased.erase x := by
  simp [Memory.erased, Memory.erase, List.filter_map, Function.comp_def]

/-! ## Which addresses are readable is public -/

theorem Memory.read_erased (m : Memory) (x : Nat) : m.erased.read x = (m.read x).map fun _ => 0 := by
  induction m with
  | nil => rfl
  | cons c m ih =>
    obtain ⟨a, w⟩ := c
    simp only [Memory.erased_cons, Memory.read, ih]
    split <;> rfl

/-- Whether a read has a value does not depend on the bytes. -/
theorem isSome_memRead_erased (p : Params) (m : Memory) (addr : Nat) (size : ReadSize) :
    (memRead p m.erased addr size).isSome = (memRead p m addr size).isSome := by
  unfold memRead
  split
  · rw [Bool.eq_iff_iff, Memory.readLE_isSome, Memory.readLE_isSome]
    simp only [Memory.read_erased, Option.isSome_map]
  · rfl

theorem memRead_erased_of_none {p : Params} {m : Memory} {addr : Nat} {size : ReadSize}
    (h : memRead p m addr size = none) : memRead p m.erased addr size = none := by
  rw [← Option.not_isSome_iff_eq_none, isSome_memRead_erased, h]
  exact Bool.false_ne_true

theorem exists_memRead_erased {p : Params} {m : Memory} {addr : Nat} {size : ReadSize} {v : Word}
    (h : memRead p m addr size = some v) : ∃ w, memRead p m.erased addr size = some w := by
  rw [← Option.isSome_iff_exists, isSome_memRead_erased, h, Option.isSome_some]

/-! ## Erasing a state -/

section
variable (s : State)

@[simp] theorem State.erased_params : s.erased.params = s.params := rfl
@[simp] theorem State.erased_phase : s.erased.phase = s.phase := rfl
@[simp] theorem State.erased_baseA : s.erased.baseA = s.baseA := rfl
@[simp] theorem State.erased_baseB : s.erased.baseB = s.baseB := rfl
@[simp] theorem State.erased_len : s.erased.len = s.len := rfl
@[simp] theorem State.erased_k : s.erased.k = s.k := rfl
@[simp] theorem State.erased_mem : s.erased.mem = s.mem.erased := rfl
@[simp] theorem State.erased_host : s.erased.host = s.host.map HostInput.erased := rfl

@[simp] theorem State.erased_erased : s.erased.erased = s.erased := by
  simp [State.erased, Function.comp_def]

/-! What erasing leaves of each update: an update of the erased state, with every secret it writes replaced by 0. -/

@[simp] theorem State.erased_emit (es : List Event) : (s.emit es).erased = s.erased.emit (es.map Event.erased) := by
  simp [State.erased, State.emit]

@[simp] theorem State.erased_publish (r : Bit) : (s.publish r).erased = s.erased.publish 0 := by
  simp [State.erased, State.publish, Event.erased]

@[simp] theorem State.erased_toIdle : s.toIdle.erased = s.erased.toIdle := rfl

@[simp] theorem State.erased_startBuffer (a b l : Word) :
    (s.startBuffer a b l).erased = (s.erased.startBuffer a b l).withAcc 0 := rfl

@[simp] theorem State.erased_accumulate (r : Bit) : (s.accumulate r).erased = s.erased.accumulate 0 := by
  simp [State.erased, State.accumulate]

@[simp] theorem State.erased_resetBlock : s.resetBlock.erased = s.erased.resetBlock.withAcc 0 := by
  simp [State.erased, State.resetBlock, State.withAcc, Event.erased]

@[simp] theorem State.erased_withHost (h : List HostInput) :
    (s.withHost h).erased = s.erased.withHost (h.map HostInput.erased) := rfl

@[simp] theorem State.erased_callerStore (x : Nat) (v : Byte) : (s.callerStore x v).erased = s.erased.callerStore x 0 := by
  simp [State.erased, State.callerStore]

@[simp] theorem State.erased_callerRelease (x : Nat) : (s.callerRelease x).erased = s.erased.callerRelease x := by
  simp [State.erased, State.callerRelease]

/-- A fault records the address, the size, the buffer and `K`, which are public, and the history, erased with the state. -/
@[simp] theorem erasedOutcome_unreadable (addr : Nat) (size : ReadSize) (buf : Buffer) :
    erasedOutcome (.fault (s.unreadable addr size buf)) = .fault (s.erased.unreadable addr size buf) := rfl

end

/-! ## No step depends on a secret -/

theorem erasedOutcome_chunkStep (s : State) : erasedOutcome (chunkStep s.erased) = erasedOutcome (chunkStep s) := by
  cases ha : memRead s.params s.mem (s.chunkAddr s.baseA) s.chunkWidth with
  | none => simp [chunkStep, ha, memRead_erased_of_none ha]
  | some va =>
    obtain ⟨va', ha'⟩ := exists_memRead_erased ha
    cases hb : memRead s.params s.mem (s.chunkAddr s.baseB) s.chunkWidth with
    | none => simp [chunkStep, ha, ha', hb, memRead_erased_of_none hb, Event.erased]
    | some vb =>
      obtain ⟨vb', hb'⟩ := exists_memRead_erased hb
      simp [chunkStep, ha, ha', hb, hb', Event.erased]

theorem erasedOutcome_blockStep (s : State) : erasedOutcome (blockStep s.erased) = erasedOutcome (blockStep s) := by
  rcases blockStep_cases s with ⟨hp, hb⟩ | ⟨hp, hk, hb⟩ | ⟨hp, hk, hb⟩ | ⟨hp, hk, hb⟩ <;> rw [hb]
  · rw [blockStep_of_idle (s := s.erased) hp]
    simp
  · rw [blockStep_of_lt (s := s.erased) hp hk]
    exact erasedOutcome_chunkStep s
  · rw [blockStep_of_eq (s := s.erased) hp hk]
    simp [completeStep]
  · rw [blockStep_of_gt (s := s.erased) hp hk]
    simp

/-- The `Issue` step of a presented command: its comparands reach `RES` and the history alone. -/
theorem erasedOutcome_issue (c : Command) {s : State} (hp : s.phase = .idle) :
    erasedOutcome (exec (decode (Command.onPorts s.params (Command.erased c))) s.erased) =
      erasedOutcome (exec (decode (Command.onPorts s.params c)) s) := by
  obtain ⟨op, opa, opb, len⟩ := c
  have hp' : s.erased.phase = .idle := hp
  rcases op_cases op with rfl | rfl | rfl | rfl
  · rw [Command.erased_of_op_ne_two (show (0 : BitVec 2) ≠ 2 by decide)]
    simp [decode, Command.onPorts, exec_cmp8_of_idle hp, exec_cmp8_of_idle hp', Event.erased]
  · rw [Command.erased_of_op_ne_two (show (1 : BitVec 2) ≠ 2 by decide)]
    simp [decode, Command.onPorts, exec_cmp64_of_idle hp, exec_cmp64_of_idle hp', Event.erased]
  · rw [Command.erased_of_op_eq_two rfl]
    simp [decode, Command.onPorts, exec_cmpbuf_of_idle hp, exec_cmpbuf_of_idle hp', Event.erased]
  · rw [Command.erased_of_op_ne_two (show (3 : BitVec 2) ≠ 2 by decide)]
    rfl

theorem erasedOutcome_step (s : State) : erasedOutcome (step s.erased) = erasedOutcome (step s) := by
  cases hh : s.host with
  | nil =>
    have hh' : s.erased.host = [] := by rw [State.erased_host, hh, List.map_nil]
    rw [step_of_nil hh, step_of_nil hh']
    exact erasedOutcome_blockStep s
  | cons x rest =>
    have hh' : s.erased.host = x.erased :: rest.map HostInput.erased := by rw [State.erased_host, hh, List.map_cons]
    cases x with
    | reset =>
      rw [step_of_reset hh, step_of_reset hh']
      simp
    | pass =>
      rw [step_of_pass hh, step_of_pass hh']
      exact erasedOutcome_blockStep (s.withHost rest)
    | store x v =>
      rw [step_of_store hh, step_of_store hh']
      simp
    | release x =>
      rw [step_of_release hh, step_of_release hh']
      simp
    | present c =>
      cases hp : s.phase with
      | idle =>
        rw [step_of_present hp hh, step_of_present (s := s.erased) hp hh']
        exact erasedOutcome_issue c (s := s.withHost rest) hp
      | run =>
        rw [step_of_present_run hp hh, step_of_present_run (s := s.erased) hp hh']
        exact erasedOutcome_blockStep s

/-- Settles O51: each of the two steps is, once erased, the erased step of the one erased state. -/
theorem stepLeaksNoSecret : Obligations.StepLeaksNoSecret := by
  intro s s' h
  rw [← erasedOutcome_step s, h, erasedOutcome_step]

/-! ## Whole runs -/

/-- The outcome of `n` steps more after a step, without the secrets; a stop stays as it is. -/
def continueErased (n : Nat) : Host.Outcome State Fault Refusal → Host.Outcome State Fault Refusal
  | .next t    => erasedOutcome (runSteps n t)
  | .fault f   => .fault f
  | .refused r => .refused r

/-- Where runs of `n` steps do not depend on the secrets, a run of one step more is decided by its erased first step. -/
theorem erasedOutcome_runSteps_succ {n : Nat}
    (hn : ∀ t : State, erasedOutcome (runSteps n t.erased) = erasedOutcome (runSteps n t)) (s : State) :
    erasedOutcome (runSteps (n + 1) s) = continueErased n (erasedOutcome (step s)) := by
  rw [runSteps_succ]
  cases step s with
  | next t => exact (hn t).symm
  | fault f => cases f; rfl
  | refused r => cases r <;> rfl

theorem erasedOutcome_runSteps (n : Nat) (s : State) :
    erasedOutcome (runSteps n s.erased) = erasedOutcome (runSteps n s) := by
  induction n generalizing s with
  | zero => simp
  | succ n ih => rw [erasedOutcome_runSteps_succ ih, erasedOutcome_runSteps_succ ih, erasedOutcome_step]

/-- Settles O52: each of the two runs is, once erased, the erased run of the one erased state. -/
theorem runsLeakNoSecret : Obligations.RunsLeakNoSecret := by
  intro n s s' h
  rw [← erasedOutcome_runSteps n s, h, erasedOutcome_runSteps]

end Sys2Proof.Machine

/-! PROOFS. What stops the machine and what keeps it waiting (60_exceptions.md R119 to R121, R129): an unreadable byte faults,
the reserved code is refused, and an idle block given no command waits. -/

namespace Sys2Proof.Machine

/-! ## Waiting -/

/-- Settles O9: in `IDLE` no step of the block's own is enabled. -/
theorem idleBlockWaits : Obligations.IdleBlockWaits := by
  intro s hp
  refine ⟨fun hh => ?_, fun rest hh => ?_⟩
  · rw [step_of_nil hh, blockStep_of_idle hp]
  · rw [step_of_pass hh]
    exact blockStep_of_idle (s := s.withHost rest) hp

/-! ## Refusals -/

/-- The operation code 3 is the reserved one (30_encoding.md R57). -/
theorem decode_onPorts_of_op_eq_three {p : Params} {c : Command} (hop : c.op = 3) :
    decode (Command.onPorts p c) = .reserved c.opa c.opb (lowBits p.lenW c.len) := by
  simp only [decode, Command.onPorts, hop]
  rfl

/-- Only the reserved code is refused, with its fields. -/
theorem reserved_of_exec_refused {i : Instr} {s : State} {r : Refusal} (e : exec i s = .refused r) :
    ∃ opa opb len, i = .reserved opa opb len ∧ r = .reservedOp 3 opa opb len := by
  rcases exec_cases i s with ⟨opa, opb, len, hi, he⟩ | ⟨-, he⟩ | ⟨-, _, _, _, -, he⟩ | ⟨-, _, _, _, -, he⟩ |
    ⟨-, _, _, _, -, he⟩ <;> rw [he] at e <;> cases e
  exact ⟨opa, opb, len, hi, rfl⟩

/-- Settles O23: the reserved code is refused whatever the state, and no other instruction is. -/
theorem reservedCodeIsRefused : Obligations.ReservedCodeIsRefused := by
  refine ⟨fun s opa opb len => rfl, fun s i r => reserved_of_exec_refused, fun s c rest hp hh hop => ?_⟩
  rw [step_of_present hp hh, decode_onPorts_of_op_eq_three hop]
  rfl

theorem blockStep_ne_refused (s : State) (r : Refusal) : blockStep s ≠ .refused r := by
  intro e
  rcases blockStep_cases s with ⟨-, hb⟩ | ⟨-, -, hb⟩ | ⟨-, -, hb⟩ | ⟨-, -, hb⟩ <;> rw [hb] at e
  · cases e
  · rcases chunkStep_cases s with ⟨-, hc⟩ | ⟨_, -, -, hc⟩ | ⟨_, _, -, -, hc⟩ <;> rw [hc] at e <;> cases e
  · cases e
  · cases e

/-- A step is refused at the hand-over of a command alone. -/
theorem exec_refused_of_step_refused {s : State} {r : Refusal} (e : step s = .refused r) :
    s.phase = .idle ∧ ∃ c rest, s.host = .present c :: rest ∧
      exec (decode (Command.onPorts s.params c)) (s.withHost rest) = .refused r := by
  rcases step_cases s with ⟨_, -, hs⟩ | ⟨_, _, _, -, hs⟩ | ⟨_, _, -, hs⟩ | ⟨_, -, hs⟩ | ⟨hp, c, rest, hh, hs⟩ |
    ⟨-, _, _, -, hs⟩ | ⟨-, hs⟩ <;> rw [hs] at e
  · cases e
  · cases e
  · cases e
  · exact absurd e (blockStep_ne_refused _ r)
  · exact ⟨hp, c, rest, hh, e⟩
  · exact absurd e (blockStep_ne_refused _ r)
  · exact absurd e (blockStep_ne_refused _ r)

/-! ## Faults -/

/-- A read has no value exactly where a byte is not readable or it runs past the top (20_memory.md R36, R37). -/
theorem memRead_eq_none_iff {s : State} {addr : Nat} {size : ReadSize} :
    memRead s.params s.mem addr size = none ↔ ¬ s.ReadableAt addr size.bytes := by
  refine ⟨fun h hr => ?_, fun h => Option.eq_none_iff_forall_ne_some.mpr fun v hv => h (readableAt_of_memRead hv)⟩
  rw [hr.memRead_eq] at h
  cases h

/-- A's read comes first, so B's does not matter (60_exceptions.md R124). -/
theorem chunkStep_of_unreadable_a {s : State} (ha : ¬ s.ReadableAt (s.chunkAddr s.baseA) s.chunkWidth.bytes) :
    chunkStep s = .fault (s.unreadable (s.chunkAddr s.baseA) s.chunkWidth .a) := by
  simp only [chunkStep, memRead_eq_none_iff.mpr ha]

theorem chunkStep_of_unreadable_b {s : State} (ha : s.ReadableAt (s.chunkAddr s.baseA) s.chunkWidth.bytes)
    (hb : ¬ s.ReadableAt (s.chunkAddr s.baseB) s.chunkWidth.bytes) :
    chunkStep s = .fault ((s.emit [.read (s.chunkAddr s.baseA) s.chunkWidth
      (s.mem.valueAt (s.chunkAddr s.baseA) s.chunkWidth)]).unreadable (s.chunkAddr s.baseB) s.chunkWidth .b) := by
  simp only [chunkStep, ha.memRead_eq, memRead_eq_none_iff.mpr hb]

/-- Settles O29: the step is a `Chunk` step, which faults on the first read without a value. -/
theorem unreadableBufferFaults : Obligations.UnreadableBufferFaults := by
  intro s hp q hk size addrA addrB
  rw [step_of_hostQuiet hp q, blockStep_of_lt hp hk]
  exact ⟨chunkStep_of_unreadable_a,
    fun ha hb => ⟨s.mem.valueAt addrA size, fun j hj => ha.read_eq_lane hj, chunkStep_of_unreadable_b ha hb⟩⟩

theorem exec_ne_fault (i : Instr) (s : State) (f : Fault) : exec i s ≠ .fault f := by
  intro e
  rcases exec_cases i s with ⟨_, _, _, -, he⟩ | ⟨-, he⟩ | ⟨-, _, _, _, -, he⟩ | ⟨-, _, _, _, -, he⟩ |
    ⟨-, _, _, _, -, he⟩ <;> rw [he] at e <;> cases e

/-- The block's own step faults as a `Chunk` step alone. -/
theorem chunkStep_fault_of_blockStep_fault {s : State} {f : Fault} (e : blockStep s = .fault f) :
    s.phase = .run ∧ s.k.toNat < numChunks s.len.toNat ∧ chunkStep s = .fault f := by
  rcases blockStep_cases s with ⟨-, hb⟩ | ⟨hp, hk, hb⟩ | ⟨-, -, hb⟩ | ⟨-, -, hb⟩ <;> rw [hb] at e
  · cases e
  · exact ⟨hp, hk, e⟩
  · cases e
  · cases e

/-- A step faults where the host leaves it to the block alone. -/
theorem blockStep_fault_of_step_fault {s : State} {f : Fault} (e : step s = .fault f) :
    ∃ h, blockStep (s.withHost h) = .fault f := by
  rcases step_cases s with ⟨_, -, hs⟩ | ⟨_, _, _, -, hs⟩ | ⟨_, _, -, hs⟩ | ⟨rest, -, hs⟩ | ⟨-, _, _, -, hs⟩ |
    ⟨-, _, _, -, hs⟩ | ⟨-, hs⟩ <;> rw [hs] at e
  · cases e
  · cases e
  · cases e
  · exact ⟨rest, e⟩
  · exact absurd e (exec_ne_fault _ _ f)
  · exact ⟨s.host, e⟩
  · exact ⟨s.host, e⟩

/-- Settles O30: a fault is a `Chunk` step's, on A's read or on B's; a refusal is the hand-over of the reserved code. -/
theorem everyStopIsListed : Obligations.EveryStopIsListed := by
  refine ⟨fun s f e => ?_, fun s r e => ?_⟩
  · obtain ⟨h, hblock⟩ := blockStep_fault_of_step_fault e
    obtain ⟨hp, hk, hchunk⟩ := chunkStep_fault_of_blockStep_fault hblock
    refine ⟨hp, hk, ?_⟩
    rcases chunkStep_cases (s.withHost h) with ⟨ha, hc⟩ | ⟨_, -, hb, hc⟩ | ⟨_, _, -, -, hc⟩ <;>
      rw [hc] at hchunk <;> cases hchunk
    · exact ⟨s.chunkAddr s.baseA, .a, s.history, rfl, rfl, memRead_eq_none_iff.mp ha⟩
    · exact ⟨s.chunkAddr s.baseB, .b, _, rfl, rfl, memRead_eq_none_iff.mp hb⟩
  · obtain ⟨hp, c, rest, hh, he⟩ := exec_refused_of_step_refused e
    obtain ⟨opa, opb, len, hi, rfl⟩ := reserved_of_exec_refused he
    obtain ⟨hop, rfl, rfl, rfl⟩ := Command.mk.inj (onPorts_eq_encode hi)
    exact ⟨hp, c, rest, hh, hop, rfl⟩

end Sys2Proof.Machine

/-! PROOFS. Reset and the command presented while busy (70_reset_and_hazards.md R136, R137, R143). -/

namespace Sys2Proof.Machine

/-! ## A command presented while busy -/

/-- A busy block does not take a command of the three operations (log 8). -/
theorem exec_of_run {i : Instr} {s : State} (hp : s.phase = .run) (hi : ∀ opa opb len, i ≠ .reserved opa opb len) :
    exec i s = .next s := by
  rcases exec_cases i s with ⟨opa, opb, len, hr, -⟩ | ⟨-, he⟩ | ⟨hidle, -⟩ | ⟨hidle, -⟩ | ⟨hidle, -⟩
  · exact absurd hr (hi opa opb len)
  · exact he
  · cases hp.symm.trans hidle
  · cases hp.symm.trans hidle
  · cases hp.symm.trans hidle

/-- Settles O8: the step is the block's own, which does not depend on the host's list, and `exec` does nothing in `RUN`. -/
theorem commandWhileBusyHasNoEffect : Obligations.CommandWhileBusyHasNoEffect := by
  refine ⟨fun s c rest hp hh => ?_, fun s opa opb len hp => ⟨?_, ?_, ?_⟩⟩
  · rw [step_of_present_run hp hh, step_of_nil (State.withHost_host s []), ← blockStep_withHost_eq_mapNext, ← hh]
    rfl
  · exact exec_of_run hp nofun
  · exact exec_of_run hp nofun
  · exact exec_of_run hp nofun

/-! ## Reset -/

/-- An idle block accepts every command but the reserved one, as no other stops the machine. -/
theorem exists_step_of_present {s : State} {c : Command} {rest : List HostInput} (hp : s.phase = .idle)
    (hh : s.host = .present c :: rest) (hop : c.op ≠ 3) : ∃ u, step s = .next u := by
  obtain ⟨hfault, hrefused⟩ := everyStopIsListed
  cases e : step s with
  | next u => exact ⟨u, rfl⟩
  | fault f =>
    obtain ⟨hrun, -⟩ := hfault s f e
    rw [hp] at hrun
    cases hrun
  | refused r =>
    obtain ⟨-, d, _, hd, hop', -⟩ := hrefused s r e
    rw [hh] at hd
    cases hd
    exact absurd hop' hop

/-- Settles O10: the next state is that of `State.resetBlock`, which is idle. -/
theorem resetStepClearsThePortsInEveryState : Obligations.ResetStepClearsThePortsInEveryState := by
  intro s rest hh
  refine ⟨_, step_of_reset hh, rfl, rfl, rfl, rfl, rfl, rfl, rfl, blockStep_of_idle rfl, fun c after hop => ?_⟩
  exact exists_step_of_present rfl (State.withHost_host _ _) hop

/-- Settles O11: a reset overwrites `ACC`, and `PHASE` leaves `RUN` by a reset or at `K = NCH` alone. -/
theorem resetDuringRunAbandonsTheCommand : Obligations.ResetDuringRunAbandonsTheCommand := by
  refine ⟨fun s rest acc _ hh => ⟨⟨_, step_of_reset hh, rfl, rfl, rfl, rfl⟩, ?_⟩, fun s t hp hk e ht => ?_⟩
  · exact step_withHidden_of_reset s.baseA s.baseB s.len s.k acc (by rw [hh]; rfl)
  · obtain ⟨-, hleaves⟩ := phaseChangesOnlySo s t e
    rcases hleaves hp ht with hr | ⟨hend, -⟩
    · exact hr
    · exact absurd hend hk.ne

end Sys2Proof.Machine
